-- ==== Sys2Proof/Word.lean ====
section
/-! DEFINITION. The byte: the one width of every register, memory cell, address and operand
(spec/00_scope.md R8, R10), and the type of a register number. -/

namespace Sys2Proof

/-- An unsigned 8-bit value (R10): register contents, memory cells, addresses, opcode and operand bytes. -/
abbrev Byte := BitVec 8

/-- The number of a general register, 0..7 (10_state.md R21). -/
abbrev Reg := Fin 8

end Sys2Proof
end

