-- ==== Sys2Proof/Config.lean ====
section
/-! DEFINITION. The implementation parameters of spec/00_scope.md R8. "No parameter is left open", so this
file holds no free value. The opcode bytes and the class mapping stand in Decode.lean. -/

namespace Sys2Proof.Config

/-- R8, 20_memory.md R40: the memory has 256 byte cells. -/
def memSize : Nat := 256

/-- R8, 10_state.md R22: register 7 is the stack pointer. -/
def spReg : Reg := 7

/-- R8, 10_state.md R36, R37: the stack pointer's reset value. -/
def spReset : Byte := 0xF4

/-- 10_state.md R36 by decision D9: the program counter's reset value. -/
def pcReset : Byte := 0

end Sys2Proof.Config
end

