-- ==== Sys2Proof/Machine/State.lean ====
section
/-! DEFINITION. The machine's state (spec/10_state.md R20), the ways a step can stop, and the state after reset. -/

namespace Sys2Proof.Machine

/-- Memory as (address, byte) pairs; the canonical form is `Memory.wf` (log 12). -/
abbrev Memory := List Host.Cell

/-- What an address the list does not hold reads as: memory is "zero-initialized at boot" (20_memory.md R41). -/
def Memory.unlisted : Byte := 0

/-- The canonical form: addresses strictly rising, all in 0..255 (20_memory.md R40), and no entry equal to what an
unlisted address reads as. -/
abbrev Memory.wf (m : Memory) : Prop :=
  m.Pairwise (fun c d => c.1 < d.1) ∧ ∀ c ∈ m, c.1 < Config.memSize ∧ c.2 ≠ Memory.unlisted

/-- The run status (10_state.md R31). -/
inductive Status where
  | running
  | halted
  | faulted
deriving DecidableEq, Repr

/-- The fault causes of 60_exceptions.md R161. -/
inductive FaultCause where
  | unknownClass
  | unknownOpcode
  | divideByZero
  | illegalRegister
deriving DecidableEq, Repr

/-- The fault record (10_state.md R32): the cause, the address of the faulting instruction and its opcode byte. -/
structure FaultRecord where
  cause : FaultCause
  pc    : Byte
  ir    : Byte
deriving DecidableEq, Repr

/-- The complete state of the core and its memory (10_state.md R20). -/
structure State where
  mem    : Memory
  x      : Vector Byte 8
  pc     : Byte
  fl     : Byte
  status : Status
  fault  : Option FaultRecord
  out    : List Byte
deriving DecidableEq, Repr

/-- Why a step cannot be taken. A fault the core RAISES is no such stop: its entry is a next state whose status is
`faulted` (60_exceptions.md R160, R167; log 6). -/
inductive Fault where
  /-- Raised by `step` on a state whose status is `halted`, which "has no step" (40_dispatch.md R80). Safe: the
  machine has no step there either (log 9). -/
  | coreHalted
  /-- Raised by `step` on a state whose status is `faulted`, which "has no step" (40_dispatch.md R80, 60_exceptions.md
  R168). Safe: the machine has no step there either (log 9). -/
  | coreFaulted
deriving DecidableEq, Repr

/-- Why an instruction has no meaning. Every instruction of the table has one, so no arm of `exec` refuses. -/
inductive Refusal where
  /-- Raised by an arm of `exec` whose instruction has no meaning yet (none has it). Safe: nothing is claimed of it. -/
  | notModelled (mnemonic : String)
deriving DecidableEq, Repr

/-- What a meaning answers. -/
abbrev Result := Host.Outcome State Fault Refusal

/-- The state after reset, with the empty image loaded (10_state.md R36, 70_reset_and_hazards.md R190, R193).
R0-R6, `pc` and `fl` are 0 by decision D9 (log 4); `x[7]` is 0xF4 by R36. -/
def State.reset : State where
  mem := []
  x := #v[0, 0, 0, 0, 0, 0, 0, Config.spReset]
  pc := Config.pcReset
  fl := 0
  status := .running
  fault := none
  out := []

end Sys2Proof.Machine
end

