-- ==== Sys2Proof/Machine/Flags.lean ====
section
/-! DEFINITION. The flag byte `00000LGE` (spec/10_state.md R28, decision D10, log 3): what CMP writes and what JEQ
and JNE read. -/

namespace Sys2Proof.Machine

/-- Less-than, bit 2. -/
def flagL : Byte := 0b00000100

/-- Greater-than, bit 1. -/
def flagG : Byte := 0b00000010

/-- Equal, bit 0. -/
def flagE : Byte := 0b00000001

/-- What CMP writes: exactly one of L, G, E by unsigned comparison (42_alu.md R124). -/
def compareFlags (u v : Byte) : Byte :=
  if u.toNat < v.toNat then flagL
  else if v.toNat < u.toNat then flagG
  else flagE

/-- `fl.E`: bit 0, the only bit an instruction reads (10_state.md R29, 43_control_flow.md R143, R144; log 28). -/
def equalSet (fl : Byte) : Bool := fl.getLsbD 0

/-- The flag byte as the ordering it stands for, `none` before the first compare (10_state.md R30). -/
def flagOrdering (fl : Byte) : Option Ordering :=
  if fl = flagL then some .lt
  else if fl = flagG then some .gt
  else if fl = flagE then some .eq
  else none

end Sys2Proof.Machine
end

