-- ==== Sys2Proof/Syntax.lean ====
section
/-! DEFINITION. The sixteen instructions of spec/00_scope.md R2, one constructor per row of
spec/opcode_table.json. Operands are the operand BYTES as fetched (30_encoding.md R65, R67): a register
operand of 8..255 is syntax that WellFormed refuses and that the machine answers with IllegalRegister (log 16). -/

namespace Sys2Proof

/-- An instruction with its operand bytes: `a` the first, `b` or `imm` the second (30_encoding.md R65). -/
inductive Instr where
  | hlt
  | ldi (a imm : Byte)
  | st (a b : Byte)
  | push (a : Byte)
  | pop (a : Byte)
  | prn (a : Byte)
  | add (a b : Byte)
  | sub (a b : Byte)
  | mul (a b : Byte)
  | div (a b : Byte)
  | cmp (a b : Byte)
  | call (a : Byte)
  | ret
  | jmp (a : Byte)
  | jeq (a : Byte)
  | jne (a : Byte)
deriving DecidableEq, Repr

/-- The sixteen opcodes of 30_encoding.md R68, without operands: what the decoder reads from the opcode byte. -/
inductive Opcode where
  | hlt | ldi | st | push | pop | prn
  | add | sub | mul | div | cmp
  | call | ret | jmp | jeq | jne
deriving DecidableEq, Repr

/-- The three instruction classes of 30_encoding.md R62, each with its unit. -/
inductive InstrClass where
  | generic
  | controlFlow
  | alu
deriving DecidableEq, Repr

/-- The four formats of 30_encoding.md R65. -/
inductive Format where
  | z
  | r
  | rr
  | ri
deriving DecidableEq, Repr

/-- The opcode of an instruction. -/
def Instr.op : Instr → Opcode
  | .hlt => .hlt
  | .ldi _ _ => .ldi
  | .st _ _ => .st
  | .push _ => .push
  | .pop _ => .pop
  | .prn _ => .prn
  | .add _ _ => .add
  | .sub _ _ => .sub
  | .mul _ _ => .mul
  | .div _ _ => .div
  | .cmp _ _ => .cmp
  | .call _ => .call
  | .ret => .ret
  | .jmp _ => .jmp
  | .jeq _ => .jeq
  | .jne _ => .jne

end Sys2Proof
end

