-- ==== Sys2Proof/WellFormed.lean ====
section
/-! DEFINITION. Well-formed instructions: every register operand names one of the eight registers
(spec/30_encoding.md R67). The immediate of LDI is any byte. -/

namespace Sys2Proof

/-- The register operand bytes of an instruction, `a` before `b` (40_dispatch.md R81: `a` for formats R and RI,
`a` and `b` for RR, none for Z). -/
def Instr.regOperands : Instr → List Byte
  | .hlt | .ret => []
  | .ldi a _ => [a]
  | .push a | .pop a | .prn a | .call a | .jmp a | .jeq a | .jne a => [a]
  | .st a b | .add a b | .sub a b | .mul a b | .div a b | .cmp a b => [a, b]

/-- Every register operand is 0..7 (R67). -/
def Instr.wf (i : Instr) : Bool := i.regOperands.all (fun r => r.toNat < 8)

end Sys2Proof
end

