-- ==== Sys2Proof/Decode.lean ====
section
/-! DEFINITION. The opcode map, the decoder and the encoder (spec/30_encoding.md). The decoder is total on all
bytes and rejects by name (R64); the encoder is written from the same table. -/

namespace Sys2Proof

/-- `v[hi:lo]`: the unsigned value of bits `hi` down to `lo` (00_scope.md R9). -/
def bitField (v : Byte) (hi lo : Nat) : Nat := v.toNat / 2 ^ lo % 2 ^ (hi - lo + 1)

/-- The operand count `n = ir[7:6]`, 0..3 (R60). -/
def operandCount (ir : Byte) : Nat := bitField ir 7 6

/-- The class selector `cls = ir[5:4]` (R61, R62; conflict C1: bit 5 is its high bit). -/
def classSelector (ir : Byte) : Nat := bitField ir 5 4

/-- The class a selector value names (R62, decision D3, log 2); 3 names none. -/
def classOfSelector : Nat → Option InstrClass
  | 0 => some .generic
  | 1 => some .controlFlow
  | 2 => some .alu
  | _ => none

/-- The class of an opcode byte (R62). -/
def classOf (ir : Byte) : Option InstrClass := classOfSelector (classSelector ir)

/-- One row of the opcode map of R68. -/
structure OpcodeRow where
  byte   : Byte
  cls    : InstrClass
  format : Format
deriving DecidableEq, Repr

/-- The opcode map of R68 (byte values: decision D4, log 1). -/
def Opcode.row : Opcode → OpcodeRow
  | .hlt  => ⟨0x01, .generic, .z⟩
  | .ldi  => ⟨0x82, .generic, .ri⟩
  | .st   => ⟨0x84, .generic, .rr⟩
  | .push => ⟨0x45, .generic, .r⟩
  | .pop  => ⟨0x46, .generic, .r⟩
  | .prn  => ⟨0x47, .generic, .r⟩
  | .add  => ⟨0xA0, .alu, .rr⟩
  | .sub  => ⟨0xA1, .alu, .rr⟩
  | .mul  => ⟨0xA2, .alu, .rr⟩
  | .div  => ⟨0xA3, .alu, .rr⟩
  | .cmp  => ⟨0xA7, .alu, .rr⟩
  | .call => ⟨0x50, .controlFlow, .r⟩
  | .ret  => ⟨0x11, .controlFlow, .z⟩
  | .jmp  => ⟨0x54, .controlFlow, .r⟩
  | .jeq  => ⟨0x55, .controlFlow, .r⟩
  | .jne  => ⟨0x56, .controlFlow, .r⟩

/-- The opcode byte of R68. -/
def Opcode.byte (op : Opcode) : Byte := op.row.byte

/-- The sixteen opcodes, in R68's order. -/
def Opcode.all : List Opcode :=
  [.hlt, .ldi, .st, .push, .pop, .prn, .add, .sub, .mul, .div, .cmp, .call, .ret, .jmp, .jeq, .jne]

/-- The instruction of R68 whose byte is `ir`, by exact match of the whole byte (R63, R64). -/
def Opcode.ofByte? (ir : Byte) : Option Opcode := Opcode.all.find? (fun op => op.byte == ir)

/-- How many operand bytes a format has (R65). -/
def Format.operands : Format → Nat
  | .z => 0
  | .r => 1
  | .rr => 2
  | .ri => 2

/-- The instruction an opcode makes of the two operand slots; a slot the format does not use is ignored (R67). -/
def Opcode.instr (op : Opcode) (a b : Byte) : Instr :=
  match op with
  | .hlt => .hlt
  | .ldi => .ldi a b
  | .st => .st a b
  | .push => .push a
  | .pop => .pop a
  | .prn => .prn a
  | .add => .add a b
  | .sub => .sub a b
  | .mul => .mul a b
  | .div => .div a b
  | .cmp => .cmp a b
  | .call => .call a
  | .ret => .ret
  | .jmp => .jmp a
  | .jeq => .jeq a
  | .jne => .jne a

/-- What the decoder rejects, by name (R69). -/
inductive DecodeError where
  | unknownClass    -- the class selector is 11 (R62, 40_dispatch.md R86)
  | unknownOpcode   -- no constant of R68 (R64, 40_dispatch.md R87)
deriving DecidableEq, Repr

/-- The pure decode of one opcode byte that R64 asks for: operand count, class and opcode, with "unknown" as
`none`. -/
structure ByteDecode where
  count : Nat
  cls   : Option InstrClass
  op    : Option Opcode
deriving DecidableEq, Repr

/-- `byte -> (operand_count, class, opcode)` (R64). -/
def decodeByte (ir : Byte) : ByteDecode := ⟨operandCount ir, classOf ir, Opcode.ofByte? ir⟩

/-- Steps 5 and 6 of 40_dispatch.md R81 on the fetched bytes: halt first, then the class, then the opcode. -/
def decode (ir a b : Byte) : Except DecodeError Instr :=
  let d := decodeByte ir
  if ir = Opcode.hlt.byte then .ok .hlt
  else
    match d.cls with
    | none => .error .unknownClass
    | some _ =>
      match d.op with
      | none => .error .unknownOpcode
      | some op => .ok (op.instr a b)

/-- Why a byte sequence gives no instruction: it ends inside one, or its opcode byte is rejected (log 21). -/
inductive StreamError where
  | truncated
  | rejected (e : DecodeError)
deriving DecidableEq, Repr

/-- The first instruction of a byte sequence and the bytes after it: the opcode byte says how many operand bytes
follow (R60), and unused operand slots are zero (R66). -/
def decodeBytes : List Byte → Except StreamError (Instr × List Byte)
  | [] => .error .truncated
  | ir :: rest =>
    match decode ir (rest.getD 0 0) (rest.getD 1 0) with
    | .error e => .error (.rejected e)
    | .ok i =>
      if rest.length < operandCount ir then .error .truncated
      else .ok (i, rest.drop (operandCount ir))

/-- The operand bytes of an instruction, in memory order (R65). -/
def Instr.operandBytes : Instr → List Byte
  | .hlt | .ret => []
  | .ldi a imm => [a, imm]
  | .push a | .pop a | .prn a | .call a | .jmp a | .jeq a | .jne a => [a]
  | .st a b | .add a b | .sub a b | .mul a b | .div a b | .cmp a b => [a, b]

/-- The bytes of an instruction, the opcode byte at the lowest address (R65, 20_memory.md R45). -/
def encode (i : Instr) : List Byte := i.op.byte :: i.operandBytes

/-- The longest instruction as three bytes, from the number whose bit 0 is the first byte's least significant
bit; every bit from `nbits` up is 0 (log 22). -/
def tableWordBytes (nbits w : Nat) : List Byte :=
  let v := w % 2 ^ nbits
  [BitVec.ofNat 8 v, BitVec.ofNat 8 (v / 2 ^ 8), BitVec.ofNat 8 (v / 2 ^ 16)]

/-- The instruction the decoder reads from a word of spec/opcode_table.json, numbered as the table numbers it. -/
def decodeTableWord (nbits w : Nat) : Option Instr :=
  match decodeBytes (tableWordBytes nbits w) with
  | .ok (i, _) => some i
  | .error _ => none

end Sys2Proof
end

