-- ==== Sys2Proof/Machine/Ops.lean ====
section
/-! DEFINITION. The named operations over memory, registers, the stack, the program counter and the output
(spec/00_scope.md R11), taking a fault (60_exceptions.md R167) and halting (40_dispatch.md R84). -/

namespace Sys2Proof.Machine

/-- The byte at an address (20_memory.md R42). -/
def Memory.read : Memory → Byte → Byte
  | [], _ => Memory.unlisted
  | c :: m, a => if c.1 = a.toNat then c.2 else Memory.read m a

/-- Put a cell where its address belongs in a rising list. -/
def Memory.insert (c : Host.Cell) : Memory → Memory
  | [] => [c]
  | d :: m => if c.1 < d.1 then c :: d :: m else d :: Memory.insert c m

/-- Write one byte (20_memory.md R42); writing what an unlisted address reads as removes the entry (log 12). -/
def Memory.write (m : Memory) (a v : Byte) : Memory :=
  let rest := m.filter (fun c => c.1 != a.toNat)
  if v = Memory.unlisted then rest else Memory.insert (a.toNat, v) rest

/-- `MemRead(addr, 1)` (R11). -/
def State.memRead (s : State) (a : Byte) : Byte := Memory.read s.mem a

/-- `MemWrite(addr, 1, v)` (R11). -/
def State.memWrite (s : State) (a v : Byte) : State := { s with mem := Memory.write s.mem a v }

/-- Consecutive byte writes from an address, each address reduced mod 256 (20_memory.md R43). -/
def State.storeBytes (s : State) (a : Byte) : List Byte → State
  | [] => s
  | v :: vs => State.storeBytes (s.memWrite a v) (a + 1) vs

/-- `x[i]` (R11, 10_state.md R21). -/
def State.getReg (s : State) (r : Reg) : Byte := s.x[r]

/-- `x[i] <- v` (R11, 10_state.md R21). -/
def State.setReg (s : State) (r : Reg) (v : Byte) : State := { s with x := s.x.set r v }

/-- The stack pointer, another name for `x[7]` (10_state.md R22). -/
def State.sp (s : State) : Byte := s.getReg Config.spReg

/-- `x[7] <- (x[7] - 1) mod 256` (41_generic.md R102). -/
def State.decSp (s : State) : State := s.setReg Config.spReg (s.sp - 1)

/-- `x[7] <- (x[7] + 1) mod 256` (41_generic.md R103). -/
def State.incSp (s : State) : State := s.setReg Config.spReg (s.sp + 1)

/-- The push routine of PUSH and CALL: decrement the stack pointer, then write at it (41_generic.md R102,
43_control_flow.md R140). -/
def State.pushByte (s : State) (v : Byte) : State := s.decSp.memWrite s.decSp.sp v

/-- The byte on top of the stack, read by POP and RET (41_generic.md R103, 43_control_flow.md R141). -/
def State.topOfStack (s : State) : Byte := s.memRead s.sp

/-- `fl <- v` (R11). -/
def State.setFl (s : State) (v : Byte) : State := { s with fl := v }

/-- `pc <- target` (R11). -/
def State.setPc (s : State) (target : Byte) : State := { s with pc := target }

/-- The address after an instruction at `pc0`: `(pc0 + n + 1) mod 256` (40_dispatch.md R88, 43_control_flow.md R140). -/
def nextAddress (op : Opcode) (pc0 : Byte) : Byte := pc0 + BitVec.ofNat 8 (operandCount op.byte + 1)

/-- `pc <- (pc0 + n + 1) mod 256`, where `pc` is still `pc0` (40_dispatch.md R88; log 17). -/
def State.advance (s : State) (op : Opcode) : State := s.setPc (nextAddress op s.pc)

/-- `Emit(v)`: `out <- out ++ [v]` (R11, 60_exceptions.md R172). -/
def State.emit (s : State) (v : Byte) : State := { s with out := s.out ++ [v] }

/-- `status <- Halted`, and nothing else: `pc` stays at the halt instruction (40_dispatch.md R84). -/
def State.halt (s : State) : State := { s with status := .halted }

/-- The state fault entry leaves: `status` and the record written, `pc` and all else kept (60_exceptions.md R167,
40_dispatch.md R92; log 7). -/
def State.faultEntry (s : State) (c : FaultCause) (ir : Byte) : State :=
  { s with status := .faulted, fault := some ⟨c, s.pc, ir⟩ }

/-- `raise F` (R11, 60_exceptions.md R167): taking the core's one kind of exception. There is no return from it
(60_exceptions.md R168). -/
def raise (c : FaultCause) (ir : Byte) (s : State) : Result := .next (s.faultEntry c ir)

end Sys2Proof.Machine
end

