-- ==== Sys2Proof/Machine/Operands.lean ====
section
/-! DEFINITION. The operand forms: a register-index operand byte, checked before the instruction executes
(spec/30_encoding.md R67, 40_dispatch.md R90). The immediate of LDI is its byte and needs no operation. -/

namespace Sys2Proof.Machine

/-- The register an operand byte names: 0..7, else none (30_encoding.md R67). -/
def regIndex? (a : Byte) : Option Reg := if h : a.toNat < 8 then some ⟨a.toNat, h⟩ else none

/-- Check one register operand; 8..255 raises IllegalRegister (40_dispatch.md R90, decision D5, log 5). -/
def withReg (op : Opcode) (a : Byte) (s : State) (k : Reg → Result) : Result :=
  match regIndex? a with
  | some r => k r
  | none => raise .illegalRegister op.byte s

/-- Check two register operands, `a` before `b` (40_dispatch.md R90). -/
def withRegs (op : Opcode) (a b : Byte) (s : State) (k : Reg → Reg → Result) : Result :=
  withReg op a s fun ra => withReg op b s fun rb => k ra rb

end Sys2Proof.Machine
end

