-- ==== Sys2Proof/Machine/Alu.lean ====
section
/-! DEFINITION. The meanings of the ALU class (spec/42_alu.md). Results are computed exactly on integers and then
reduced modulo 256 (R126). -/

namespace Sys2Proof.Machine

/-- R120. -/
def aluAdd (u v : Byte) : Byte := BitVec.ofNat 8 (u.toNat + v.toNat)

/-- R121: the difference is taken on integers. -/
def aluSub (u v : Byte) : Byte := BitVec.ofInt 8 ((u.toNat : Int) - (v.toNat : Int))

/-- R122: the low 8 bits of the product. -/
def aluMul (u v : Byte) : Byte := BitVec.ofNat 8 (u.toNat * v.toNat)

/-- R123: the unsigned quotient, rounded toward zero (decision D13, log 11); called with a non-zero divisor only. -/
def aluDiv (u v : Byte) : Byte := BitVec.ofNat 8 (u.toNat / v.toNat)

/-- ADD (R120): `x[a] <- (x[a] + x[b]) mod 256`. -/
def execAdd (a b : Byte) (s : State) : Result :=
  withRegs .add a b s fun ra rb => .next ((s.setReg ra (aluAdd (s.getReg ra) (s.getReg rb))).advance .add)

/-- SUB (R121): `x[a] <- (x[a] - x[b]) mod 256`. -/
def execSub (a b : Byte) (s : State) : Result :=
  withRegs .sub a b s fun ra rb => .next ((s.setReg ra (aluSub (s.getReg ra) (s.getReg rb))).advance .sub)

/-- MUL (R122): `x[a] <- (x[a] * x[b]) mod 256`. -/
def execMul (a b : Byte) (s : State) : Result :=
  withRegs .mul a b s fun ra rb => .next ((s.setReg ra (aluMul (s.getReg ra) (s.getReg rb))).advance .mul)

/-- DIV (R123): a zero divisor raises DivideByZero before the ALU runs (40_dispatch.md R91), after the register
check (60_exceptions.md R166); otherwise `x[a] <- floor(x[a] / x[b])`. -/
def execDiv (a b : Byte) (s : State) : Result :=
  withRegs .div a b s fun ra rb =>
    if s.getReg rb = 0 then raise .divideByZero Opcode.div.byte s
    else .next ((s.setReg ra (aluDiv (s.getReg ra) (s.getReg rb))).advance .div)

/-- CMP (R124): writes all of `fl` and nothing else. -/
def execCmp (a b : Byte) (s : State) : Result :=
  withRegs .cmp a b s fun ra rb => .next ((s.setFl (compareFlags (s.getReg ra) (s.getReg rb))).advance .cmp)

end Sys2Proof.Machine
end

