-- ==== Sys2Proof/Machine/ControlFlow.lean ====
section
/-! DEFINITION. The meanings of the control-flow class (spec/43_control_flow.md). Each sets `pc` itself on every path
(40_dispatch.md R89). -/

namespace Sys2Proof.Machine

/-- CALL (R140): push the address after the call, then jump to `x[a]`, read after the push (decision D17, log 10). -/
def execCall (a : Byte) (s : State) : Result :=
  withReg .call a s fun ra =>
    .next ((s.pushByte (nextAddress .call s.pc)).setPc ((s.pushByte (nextAddress .call s.pc)).getReg ra))

/-- RET (R141): `pc` takes the top of the stack, then the stack pointer is incremented. -/
def execRet (s : State) : Result := .next (s.setPc s.topOfStack).incSp

/-- JMP (R142): `pc <- x[a]`. -/
def execJmp (a : Byte) (s : State) : Result :=
  withReg .jmp a s fun ra => .next (s.setPc (s.getReg ra))

/-- JEQ (R143): `pc <- x[a]` if `fl.E` is 1, else the next instruction. -/
def execJeq (a : Byte) (s : State) : Result :=
  withReg .jeq a s fun ra => .next (if equalSet s.fl then s.setPc (s.getReg ra) else s.advance .jeq)

/-- JNE (R144): `pc <- x[a]` if `fl.E` is 0, else the next instruction. -/
def execJne (a : Byte) (s : State) : Result :=
  withReg .jne a s fun ra => .next (if equalSet s.fl then s.advance .jne else s.setPc (s.getReg ra))

end Sys2Proof.Machine
end

