-- ==== Sys2Proof/Machine/Generic.lean ====
section
/-! DEFINITION. The meanings of the generic class (spec/41_generic.md): LDI, ST, PUSH, POP, PRN, and HLT, which the
dispatcher handles itself. -/

namespace Sys2Proof.Machine

/-- HLT (41_generic.md R105, 40_dispatch.md R84): the run ends, `pc` stays at the halt instruction. -/
def execHlt (s : State) : Result := .next s.halt

/-- LDI (R100): `x[a] <- imm`. -/
def execLdi (a imm : Byte) (s : State) : Result :=
  withReg .ldi a s fun ra => .next ((s.setReg ra imm).advance .ldi)

/-- ST (R101): `mem[x[a]] <- x[b]`. -/
def execSt (a b : Byte) (s : State) : Result :=
  withRegs .st a b s fun ra rb => .next ((s.memWrite (s.getReg ra) (s.getReg rb)).advance .st)

/-- PUSH (R102): decrement the stack pointer, then write `x[a]`, read after the decrement (decision D17, log 10). -/
def execPush (a : Byte) (s : State) : Result :=
  withReg .push a s fun ra => .next ((s.pushByte (s.decSp.getReg ra)).advance .push)

/-- POP (R103): `x[a]` takes the top of the stack, then `x[7]` is incremented as it then stands (decision D17, log 10). -/
def execPop (a : Byte) (s : State) : Result :=
  withReg .pop a s fun ra => .next ((s.setReg ra s.topOfStack).incSp.advance .pop)

/-- PRN (R104): emit `x[a]`. -/
def execPrn (a : Byte) (s : State) : Result :=
  withReg .prn a s fun ra => .next ((s.emit (s.getReg ra)).advance .prn)

end Sys2Proof.Machine
end

