-- ==== Sys2Proof/Machine/Fetch.lean ====
section
/-! DEFINITION. Fetching an instruction's bytes (spec/30_encoding.md R66, 40_dispatch.md R82). -/

namespace Sys2Proof.Machine

/-- The per-step latches `ir`, `a`, `b` (10_state.md R35); `pc0` is the state's `pc`. -/
structure Fetched where
  ir : Byte
  a  : Byte
  b  : Byte
deriving DecidableEq, Repr

/-- The opcode byte at `pc` and 0, 1 or 2 operand bytes after it, each address mod 256, unused slots zero (R66);
a count of 3 reads the same two (R66, decision D12, log 24). -/
def fetch (s : State) : Fetched :=
  let ir := s.memRead s.pc
  { ir := ir
    a := if 1 ≤ operandCount ir then s.memRead (s.pc + 1) else 0
    b := if 2 ≤ operandCount ir then s.memRead (s.pc + 2) else 0 }

end Sys2Proof.Machine
end

