-- ==== Sys2Proof/Machine/Cycle.lean ====
section
/-! DEFINITION. The dispatch algorithm of one cycle on a running core (spec/40_dispatch.md R81). -/

namespace Sys2Proof.Machine

/-- The fault a rejected opcode byte raises (40_dispatch.md R86, R87). -/
def causeOfDecodeError : DecodeError → FaultCause
  | .unknownClass => .unknownClass
  | .unknownOpcode => .unknownOpcode

/-- Fetch, decode, then execute the instruction or raise the fault of the byte (R81). The register-index and divisor
checks stand in the meanings. -/
def cycle (s : State) : Result :=
  let f := fetch s
  match decode f.ir f.a f.b with
  | .ok i => exec i s
  | .error e => raise (causeOfDecodeError e) f.ir s

end Sys2Proof.Machine
end

