-- ==== Sys2Proof/Machine/Step.lean ====
section
/-! DEFINITION. The step of the machine (spec/40_dispatch.md R80). -/

namespace Sys2Proof.Machine

/-- One whole instruction while `status` is `running`; a halted or faulted core has no step (R80; log 9). -/
def step (s : State) : Host.Outcome State Fault Refusal :=
  match s.status with
  | .running => cycle s
  | .halted => .fault .coreHalted
  | .faulted => .fault .coreFaulted

/-- `s` with the three bytes of a table word stored where the next fetch reads: at `pc` and after it (log 13). -/
def State.withFetchWord (s : State) (nbits w : Nat) : State := s.storeBytes s.pc (tableWordBytes nbits w)

end Sys2Proof.Machine
end

