-- ==== Sys2Proof/Machine/Platform.lean ====
section
/-! DEFINITION. What the host may do outside a run (spec/60_exceptions.md R179): reset the core, load an image,
render the output. `step` does not use this file. -/

namespace Sys2Proof.Machine

/-- `rst`: every piece of state to its reset value (70_reset_and_hazards.md R190), whatever the state was. -/
def hostReset (_ : State) : State := State.reset

/-- Load: the image into memory from address 0, nothing else touched; an image longer than the memory is refused
(70_reset_and_hazards.md R192, decision D15, log 14). -/
def hostLoad (img : List Byte) (s : State) : Option State :=
  if img.length ≤ Config.memSize then some (s.storeBytes 0 img) else none

/-- Reset, then load: the state in which a run starts (70_reset_and_hazards.md R193; log 13). -/
def boot (img : List Byte) : Option State := hostLoad img State.reset

/-- One output value as text: its unsigned decimal numeral and a line feed (60_exceptions.md R173, decision D11,
log 19). -/
def renderLine (v : Byte) : List Char := Nat.toDigits 10 v.toNat ++ ['\n']

/-- The printed text of a run: one line per value, in order (60_exceptions.md R173). -/
def renderOutput (out : List Byte) : List Char := out.flatMap renderLine

end Sys2Proof.Machine
end

