-- ==== Sys2Proof/Machine/Ports.lean ====
section
/-! DEFINITION. The block's interface at the instruction level (spec/00_scope.md R7, decision D14, log 20): the
accesses of a step on the memory port in the order of 20_memory.md R44, the print output, and the fault outputs.
`step` does not use this file. -/

namespace Sys2Proof.Machine

/-- One byte access on the memory port (R7): `mem_addr`, for a read the byte that comes in on `mem_rdata`, for a write
`mem_wdata` with `mem_we` set. -/
inductive Access where
  | read (addr rdata : Byte)
  | write (addr wdata : Byte)
deriving DecidableEq, Repr

/-- `mem_addr`. -/
def Access.addr : Access → Byte
  | .read a _ => a
  | .write a _ => a

/-- `mem_we`. -/
def Access.we : Access → Bool
  | .read _ _ => false
  | .write _ _ => true

/-- `mem_rdata`, the byte read at `mem_addr`; a write reads none. -/
def Access.rdata? : Access → Option Byte
  | .read _ d => some d
  | .write _ _ => none

/-- `mem_wdata`, the byte to write; a read writes none. -/
def Access.wdata? : Access → Option Byte
  | .read _ _ => none
  | .write _ v => some v

/-- What an access leaves in memory. -/
def Access.applyTo (m : Memory) : Access → Memory
  | .read _ _ => m
  | .write a v => Memory.write m a v

/-- A read of an address: the memory that State holds answers on `mem_rdata` (R7, 20_memory.md R42; log 20). -/
def readAccess (s : State) (a : Byte) : Access := .read a (s.memRead a)

/-- The first row of R44: the opcode byte, then the operand bytes the count asks for. -/
def fetchAccesses (s : State) : List Access :=
  let n := operandCount (s.memRead s.pc)
  readAccess s s.pc ::
    ((if 1 ≤ n then [readAccess s (s.pc + 1)] else []) ++ (if 2 ≤ n then [readAccess s (s.pc + 2)] else []))

/-- The other rows of R44. An instruction that faults makes no data access (40_dispatch.md R92; log 27). -/
def dataAccesses (i : Instr) (s : State) : List Access :=
  match i with
  | .st a b =>
    match regIndex? a, regIndex? b with
    | some ra, some rb => [.write (s.getReg ra) (s.getReg rb)]
    | _, _ => []
  | .push a =>
    match regIndex? a with
    | some ra => [.write s.decSp.sp (s.decSp.getReg ra)]
    | none => []
  | .pop a =>
    match regIndex? a with
    | some _ => [readAccess s s.sp]
    | none => []
  | .call a =>
    match regIndex? a with
    | some _ => [.write s.decSp.sp (nextAddress .call s.pc)]
    | none => []
  | .ret => [readAccess s s.sp]
  | .hlt | .ldi _ _ | .prn _ | .add _ _ | .sub _ _ | .mul _ _ | .div _ _ | .cmp _ _ | .jmp _ | .jeq _ | .jne _ => []

/-- The instruction a running core executes next, if its opcode byte is known. -/
def nextInstr? (s : State) : Option Instr :=
  match s.status, decode (fetch s).ir (fetch s).a (fetch s).b with
  | .running, .ok i => some i
  | _, _ => none

/-- Every access of one step, in order; a stopped core makes none. -/
def busTrace (s : State) : List Access :=
  match s.status with
  | .running =>
    fetchAccesses s ++
      (match nextInstr? s with
      | some i => dataAccesses i s
      | none => [])
  | .halted | .faulted => []

/-- `out_data` of the pulse a step gives on the print output, none where `out_valid` stays 0 (60_exceptions.md R172). -/
def outPulse (s : State) : Option Byte :=
  match nextInstr? s with
  | some (.prn a) => (regIndex? a).map s.getReg
  | _ => none

/-- The cause codes of 60_exceptions.md R161 (decision D6, log 6). -/
def FaultCause.code : FaultCause → BitVec 3
  | .unknownClass => 1
  | .unknownOpcode => 2
  | .divideByZero => 3
  | .illegalRegister => 4

/-- `fault_cause`: the code, 0 for no fault (R7, R161). -/
def faultCausePort (s : State) : BitVec 3 :=
  match s.fault with
  | some f => f.cause.code
  | none => 0

/-- `fault_pc` and `fault_ir`, which show the record when there is one (R7, 60_exceptions.md R167; log 20). -/
def faultAddressPorts (s : State) : Option (Byte × Byte) := s.fault.map fun f => (f.pc, f.ir)

end Sys2Proof.Machine
end

