-- ==== Sys2Proof/Safety.lean ====
section
/-! DEFINITION. Runs, what a stopped core's record has to say, the invariant of the machine, and safe runs. -/

namespace Sys2Proof.Machine

/-- `t` is reached from `s` by steps (spec/40_dispatch.md R80, R93). -/
inductive Reaches : State → State → Prop where
  | refl (s : State) : Reaches s s
  | step {s t u : State} : Reaches s t → step t = .next u → Reaches s u

/-- The condition under which a cause is raised at the state's own `pc` (60_exceptions.md R162-R165), stated on the
bytes the state holds there. -/
def causeHolds (c : FaultCause) (s : State) : Prop :=
  match c with
  | .unknownClass => (fetch s).ir ≠ Opcode.hlt.byte ∧ classSelector (fetch s).ir = 3
  | .unknownOpcode => classSelector (fetch s).ir ≠ 3 ∧ Opcode.ofByte? (fetch s).ir = none
  | .illegalRegister => ∃ i : Instr, decode (fetch s).ir (fetch s).a (fetch s).b = .ok i ∧ i.wf = false
  | .divideByZero =>
    ∃ (a b : Byte) (rb : Reg), decode (fetch s).ir (fetch s).a (fetch s).b = .ok (.div a b) ∧
      (Instr.div a b).wf = true ∧ regIndex? b = some rb ∧ s.getReg rb = 0

/-- Status and record fit each other and the bytes at `pc`: a running core has no record (10_state.md R32), a halted
core stands on a halt instruction (40_dispatch.md R94), and a faulted core's record names its own `pc`, the opcode byte
there and a cause that holds (60_exceptions.md R167). -/
def stopExplained (s : State) : Prop :=
  match s.status, s.fault with
  | .running, none => True
  | .halted, none => s.memRead s.pc = Opcode.hlt.byte
  | .faulted, some f => f.pc = s.pc ∧ f.ir = s.memRead s.pc ∧ causeHolds f.cause s
  | _, _ => False

/-- The invariant every step keeps: canonical memory (log 12), one of the four flag values of 10_state.md R30, and a
status with its record. -/
structure State.Inv (s : State) : Prop where
  mem_wf : Memory.wf s.mem
  fl_legal : s.fl = 0 ∨ s.fl = flagE ∨ s.fl = flagG ∨ s.fl = flagL
  stop_explained : stopExplained s

/-- A run is safe when no state of it is faulted. -/
def SafeRun (s : State) : Prop := ∀ t, Reaches s t → t.status ≠ .faulted

/-- A run ends halted in `t` (40_dispatch.md R94). -/
def HaltsIn (s t : State) : Prop := Reaches s t ∧ t.status = .halted

end Sys2Proof.Machine
end

