-- ==== Sys2Proof/Certificates/Slice0/Obligations.lean ====
section
/-! DEFINITION. The statements for the provers. Every per-instruction statement says the result, the frame and that
the instruction completes; operands range over every byte the form admits, R7 and equal operands among them. -/

namespace Sys2Proof.Claims

open Sys2Proof.Machine

/-- The register a readable operand byte names. -/
def reg (a : Byte) (h : a.toNat < 8) : Reg := ⟨a.toNat, h⟩

/-- Every register outside the list keeps its value. -/
def RegsKeptExcept (rs : List Reg) (s t : State) : Prop := ∀ r, r ∉ rs → t.getReg r = s.getReg r

/-- Every byte of memory outside the list reads as before. -/
def MemKeptExcept (addrs : List Byte) (s t : State) : Prop := ∀ a, a ∉ addrs → t.memRead a = s.memRead a

/-- The run status and the fault record are unchanged. -/
def RunKept (s t : State) : Prop := t.status = s.status ∧ t.fault = s.fault

/-- The state 60_exceptions.md R167 leaves: status and record written, nothing else. -/
def raised (c : FaultCause) (ir : Byte) (s : State) : State :=
  { s with status := .faulted, fault := some { cause := c, pc := s.pc, ir := ir } }

/-- The registers an instruction may write, from the table of 10_state.md R23. -/
def mayWrite (i : Instr) (r : Reg) : Prop :=
  match i with
  | .ldi a _ | .add a _ | .sub a _ | .mul a _ | .div a _ => r.val = a.toNat
  | .pop a => r.val = a.toNat ∨ r = 7
  | .push _ | .call _ | .ret => r = 7
  | .hlt | .st _ _ | .prn _ | .cmp _ _ | .jmp _ | .jeq _ | .jne _ => False

/-- The opcode bytes of formats R and RI: one register operand. -/
def oneRegisterBytes : List Byte := [0x82, 0x45, 0x46, 0x47, 0x50, 0x54, 0x55, 0x56]

/-- The opcode bytes of format RR: two register operands. -/
def twoRegisterBytes : List Byte := [0x84, 0xA0, 0xA1, 0xA2, 0xA3, 0xA7]

/-- The sixteen opcode bytes of 30_encoding.md R68. -/
def knownBytes : List Byte := [0x01, 0x11] ++ oneRegisterBytes ++ twoRegisterBytes

end Sys2Proof.Claims

open Sys2Proof Sys2Proof.Machine Sys2Proof.Claims

/-! ## Encoding and decoding -/

/-- 30_encoding.md section 2: decoding the bytes of an instruction gives it back, every operand at every byte value,
with the bytes that follow. It holds of ill-formed instructions too (log 16). -/
def Obligations.DecodeReadsBackEncodedInstruction : Prop :=
  ∀ (i : Instr) (rest : List Byte), decodeBytes (encode i ++ rest) = .ok (i, rest)

/-- 30_encoding.md sections 1 and 2: what the decoder accepts is exactly the bytes of the instruction it gives. -/
def Obligations.DecodedBytesAreTheEncoding : Prop :=
  ∀ (bs rest : List Byte) (i : Instr), decodeBytes bs = .ok (i, rest) → bs = encode i ++ rest

/-- 30_encoding.md R60: one opcode byte and `ir[7:6]` operand bytes, 1 to 3 bytes in all; the field 3 is no valid
instruction's; the decoder takes exactly as many bytes as the first byte alone says. -/
def Obligations.OpcodeByteGivesLength : Prop :=
  (∀ i : Instr, ∃ ir ops, encode i = ir :: ops ∧ ops.length = ir.toNat / 64 ∧ ops.length ≤ 2) ∧
    (∀ ir a b i, decode ir a b = .ok i → ir.toNat / 64 ≠ 3) ∧
    (∀ ir bs i rest, decodeBytes (ir :: bs) = .ok (i, rest) → rest.length + ir.toNat / 64 = bs.length)

/-- 30_encoding.md section 3: words written out from the opcode map, one or more of each class and format. The byte
values are decision D4's, the spec's own choice (log 1). The numbering of a table word in the two `decodeTableWord`
clauses, bits above `nbits` being 0, is the model's (log 22). -/
def Obligations.WrittenOutWordsDecode : Prop :=
  decodeBytes [0b00000001] = .ok (.hlt, []) ∧
    decodeBytes [0b10000010, 0b00000111, 0b11111111] = .ok (.ldi 7 255, []) ∧
    decodeBytes [0b10000100, 0b00000010, 0b00000011] = .ok (.st 2 3, []) ∧
    decodeBytes [0b01000101, 0b00000111] = .ok (.push 7, []) ∧
    decodeBytes [0b10100011, 0b00000000, 0b00001001] = .ok (.div 0 9, []) ∧
    decodeBytes [0b10100111, 0b00000001, 0b00000110] = .ok (.cmp 1 6, []) ∧
    decodeBytes [0b00010001] = .ok (.ret, []) ∧
    decodeBytes [0b01010110, 0b00000101] = .ok (.jne 5, []) ∧
    decodeTableWord 24 0x0201A1 = some (.sub 1 2) ∧
    decodeTableWord 8 0x50 = some (.call 0)

/-- 30_encoding.md sections 1 and 4: every other opcode byte is rejected, by class selector; 64 are of the unknown
class and 176 unknown in their class. It rests on decisions D3 and D4, the spec's own choices (log 1, 2). -/
def Obligations.UnknownBytesRejectedByClass : Prop :=
  (∀ ir a b : Byte, ir ∉ knownBytes →
    decode ir a b = .error (if ir.toNat / 16 % 4 = 3 then .unknownClass else .unknownOpcode)) ∧
    (∀ ir a b : Byte, ir ∈ knownBytes → ∃ i, decode ir a b = .ok i) ∧
    ((List.range 256).filter fun n => n / 16 % 4 = 3 ∧ BitVec.ofNat 8 n ∉ knownBytes).length = 64 ∧
    ((List.range 256).filter fun n => n / 16 % 4 ≠ 3 ∧ BitVec.ofNat 8 n ∉ knownBytes).length = 176

/-! ## Fetch and step -/

/-- 30_encoding.md R66: the opcode byte at `pc0`, the operand bytes after it as the count asks, each address mod 256;
unused slots are zero; a count of 3 reads the same two. -/
def Obligations.FetchReadsCountedOperands : Prop :=
  ∀ s : State, (fetch s).ir = s.memRead s.pc ∧
    (1 ≤ (s.memRead s.pc).toNat / 64 → (fetch s).a = s.memRead (BitVec.ofNat 8 ((s.pc.toNat + 1) % 256))) ∧
    (2 ≤ (s.memRead s.pc).toNat / 64 → (fetch s).b = s.memRead (BitVec.ofNat 8 ((s.pc.toNat + 2) % 256))) ∧
    ((s.memRead s.pc).toNat / 64 = 0 → (fetch s).a = 0) ∧
    ((s.memRead s.pc).toNat / 64 ≤ 1 → (fetch s).b = 0)

/-- 40_dispatch.md section 2: where the bytes at `pc`, each address mod 256, are an instruction's, a running core's
step is that instruction's execution. That the step adds nothing around `exec`, which advances `pc` itself, is the
model's form (log 17). -/
def Obligations.StepRunsDecodedInstruction : Prop :=
  ∀ (s : State) (i : Instr), s.status = .running →
    (∀ k (h : k < (encode i).length), s.memRead (s.pc + BitVec.ofNat 8 k) = (encode i)[k]) → step s = exec i s

/-- The host's word placement (log 13, 22): the next step runs the instruction the decoder reads from the word. -/
def Obligations.PlacedTableWordRunsNext : Prop :=
  ∀ (s : State) (nbits w : Nat) (i : Instr), s.status = .running → decodeTableWord nbits w = some i →
    step (s.withFetchWord nbits w) = exec i (s.withFetchWord nbits w) ∧
      (∀ a, a ≠ s.pc → a ≠ s.pc + 1 → a ≠ s.pc + 2 → (s.withFetchWord nbits w).memRead a = s.memRead a) ∧
      s.withFetchWord nbits w = { s with mem := (s.withFetchWord nbits w).mem }

/-- 40_dispatch.md sections 1 and 2: a running core always has a step, whatever its memory holds, a fault's entry being a
step too (log 6); a halted or faulted core has none, which the model answers with two stops of its own names (log 9);
the core is running after reset, which in the model is the state with the empty image loaded (log 13). -/
def Obligations.OnlyRunningCoreSteps : Prop :=
  ∀ s : State, (s.status = .running → ∃ t, step s = .next t) ∧
    (s.status = .halted → step s = .fault .coreHalted) ∧ (s.status = .faulted → step s = .fault .coreFaulted) ∧
    (hostReset s).status = .running

/-- 40_dispatch.md section 2 and 60_exceptions.md section 1: which condition of a step is reported, in order. The spec's
own choices in it are the order (D8, log 8), the register check (D5, log 5), the opcode bytes (D4, log 1), selector 11
as the unknown class (D3, log 2), the record (D6, log 6), and that a faulting step writes nothing else and leaves `pc`
(D7, log 7). -/
def Obligations.StepReportsFirstCondition : Prop :=
  ∀ (s : State) (ir a b : Byte), s.status = .running → ir = s.memRead s.pc → a = s.memRead (s.pc + 1) →
    b = s.memRead (s.pc + 2) →
    (ir = 0x01 → step s = .next { s with status := .halted }) ∧
    (ir ≠ 0x01 → ir.toNat / 16 % 4 = 3 → step s = .next (raised .unknownClass ir s)) ∧
    (ir.toNat / 16 % 4 ≠ 3 → ir ∉ knownBytes → step s = .next (raised .unknownOpcode ir s)) ∧
    (ir ∈ oneRegisterBytes → 8 ≤ a.toNat → step s = .next (raised .illegalRegister ir s)) ∧
    (ir ∈ twoRegisterBytes → 8 ≤ a.toNat ∨ 8 ≤ b.toNat → step s = .next (raised .illegalRegister ir s)) ∧
    (∀ hb : b.toNat < 8, ir = 0xA3 → a.toNat < 8 → s.getReg (reg b hb) = 0 →
      step s = .next (raised .divideByZero ir s)) ∧
    (ir ∈ knownBytes → ir ≠ 0x01 → (ir ∈ oneRegisterBytes → a.toNat < 8) →
      (ir ∈ twoRegisterBytes → a.toNat < 8 ∧ b.toNat < 8) →
      (ir = 0xA3 → ∀ r : Reg, r.val = b.toNat → s.getReg r ≠ 0) →
      ∃ t, step s = .next t ∧ t.status = .running ∧ t.fault = s.fault)

/-! ## Faults -/

/-- 60_exceptions.md section 1 and 40_dispatch.md section 2: a step that faults writes the status and the record
{cause, pc0, ir} and nothing else. The record is decision D6 (log 6), and that nothing else is written and `pc` stays is
decision D7 (log 7), the spec's own choices. -/
def Obligations.FaultingStepWritesOnlyItsRecord : Prop :=
  ∀ s t : State, step s = .next t → t.status = .faulted → ∃ c, t = raised c (s.memRead s.pc) s

/-- 40_dispatch.md section 2 (register check) by decision D5, the spec's own choice (log 5): any register operand of
8..255 of any instruction raises IllegalRegister, whether or not a branch would be taken. That the state is the old one
but for status and record, `pc` included, is decisions D6 and D7, the spec's own choices (log 6, 7). -/
def Obligations.IllegalRegisterOperandRaises : Prop :=
  ∀ (i : Instr) (s : State), (∃ r ∈ i.regOperands, 8 ≤ r.toNat) →
    ∃ ir ops, encode i = ir :: ops ∧ exec i s = .next (raised .illegalRegister ir s)

/-- 42_alu.md (DIV) and 60_exceptions.md section 1: a zero divisor raises DivideByZero with the DIV byte in the record,
and nothing is written (decisions D4, D6, D7, the spec's own choices, log 1, 6, 7). -/
def Obligations.DivideByZeroRaises : Prop :=
  ∀ (s : State) (a b : Byte) (_ : a.toNat < 8) (hb : b.toNat < 8), s.getReg (reg b hb) = 0 →
    exec (.div a b) s = .next (raised .divideByZero 0xA3 s)

/-- 60_exceptions.md section 1: the cause codes on the `fault_cause` output, 0 for no fault, and the record on
`fault_pc` and `fault_ir`. The codes are decision D6, the spec's own choice (log 6, 20). -/
def Obligations.FaultOutputsShowTheRecord : Prop :=
  ∀ s : State, (s.fault = none → faultCausePort s = 0 ∧ faultAddressPorts s = none) ∧
    ∀ c p ir, s.fault = some ⟨c, p, ir⟩ → faultAddressPorts s = some (p, ir) ∧
      (c = .unknownClass → faultCausePort s = 1) ∧ (c = .unknownOpcode → faultCausePort s = 2) ∧
      (c = .divideByZero → faultCausePort s = 3) ∧ (c = .illegalRegister → faultCausePort s = 4)

/-! ## Invariants -/

/-- The invariant of Safety.lean (10_state.md sections 4 and 5, 40_dispatch.md section 3, 60_exceptions.md section 1):
canonical memory, a legal flag value, and a stop that the bytes at `pc` explain. Every step keeps it. Choices in it: the
canonical form is the model's (log 12); the spec's own are the flag values (D10, log 3), the record (D6, log 6), that a
faulted core's `pc`, registers and bytes are still those of the faulting instruction (D7, log 7), the opcode bytes, the
class selector, the register check and the order behind its causes (D4, D3, D5, D8, log 1, 2, 5, 8). -/
def Obligations.StepKeepsMachineInvariant : Prop :=
  ∀ s t : State, s.Inv → step s = .next t → t.Inv

/-- The reset state meets the invariant of Safety.lean. Its `fl` of 0 is decision D9, the spec's own choice (log 4); the
canonical form and the running status at reset are the model's (log 12, 13). -/
def Obligations.ResetMeetsMachineInvariant : Prop := State.reset.Inv

/-- Every state of every run of every image the host may load meets the invariant of Safety.lean: canonical memory (log
12), a legal flag value (D10, log 3), a stop explained by the bytes at a `pc` that a fault leaves in place (D7, log 7).
That a run starts from the loaded reset state, running, is the model's reading (log 13); the refusal of longer images
and the reset flag value are decisions D15 and D9 (log 14, 4). -/
def Obligations.EveryBootedRunKeepsInvariant : Prop :=
  ∀ (img : List Byte) (s t : State), boot img = some s → Reaches s t → t.Inv

/-- 20_memory.md section 1 (log 12): canonical memories that read alike at all 256 addresses are equal. -/
def Obligations.CanonicalMemoryDeterminedByReads : Prop :=
  ∀ m m' : Memory, Memory.wf m → Memory.wf m' → (∀ a, Memory.read m a = Memory.read m' a) → m = m'

/-- 20_memory.md R42: after any sequence of one-byte writes, a read returns the byte most recently written at its
address, or what was there before if none was. No write fails. -/
def Obligations.ReadReturnsMostRecentWrite : Prop :=
  ∀ (s : State) (ws : List (Byte × Byte)) (a : Byte),
    (ws.foldl (fun u w => u.memWrite w.1 w.2) s).memRead a =
      (((ws.filter fun w => w.1 = a).getLast?.map fun w => w.2).getD (s.memRead a))

/-! ## Whole-machine rules -/

/-- 10_state.md section 4: no instruction but CMP changes the flag byte. -/
def Obligations.OnlyCompareWritesFlags : Prop :=
  ∀ (i : Instr) (s t : State), exec i s = .next t → (∀ a b, i ≠ .cmp a b) → t.fl = s.fl

/-- 10_state.md section 4 (bit E is bit 0 by decision D10, log 3): changing the flag byte before a step changes nothing but the flag byte after it, if bit E
is the same or the instruction is neither JEQ nor JNE: L and G are read by no instruction, E by those two alone. -/
def Obligations.FlagsReadOnlyThroughEqualBit : Prop :=
  ∀ (i : Instr) (s t : State) (f : Byte), exec i s = .next t →
    (f.getLsbD 0 = s.fl.getLsbD 0 ∨ ((∀ a, i ≠ .jeq a) ∧ ∀ a, i ≠ .jne a)) →
    ∃ g, exec i { s with fl := f } = .next { t with fl := g } ∧
      (f.getLsbD 0 = s.fl.getLsbD 0 → g.getLsbD 0 = t.fl.getLsbD 0)

/-- 10_state.md R33: a step leaves `out` as it was, followed by the printed register's value exactly when the step
executes a print. -/
def Obligations.OutputIsAppendedByPrintAlone : Prop :=
  ∀ s t : State, step s = .next t →
    (∀ a r, decode (fetch s).ir (fetch s).a (fetch s).b = .ok (.prn a) → regIndex? a = some r →
      t.out = s.out ++ [s.getReg r]) ∧
    ((∀ a r, decode (fetch s).ir (fetch s).a (fetch s).b = .ok (.prn a) → regIndex? a ≠ some r) → t.out = s.out)

/-- 00_scope.md section 3 and 20_memory.md section 2: every read of a step on the memory port brings in the byte memory
holds at its address, the memory after a step is the memory before it with the step's memory-port writes applied, there
is at most one write, and the print pulse is what `out` gains (log 20, 27). -/
def Obligations.PortsAccountForMemoryAndOutput : Prop :=
  ∀ s t : State, step s = .next t →
    t.mem = (busTrace s).foldl Access.applyTo s.mem ∧
      ((busTrace s).filter Access.we).length ≤ 1 ∧
      (∀ acc ∈ busTrace s, acc.we = true →
        ∃ i, nextInstr? s = some i ∧ (i.op = .st ∨ i.op = .push ∨ i.op = .call)) ∧
      (∀ acc ∈ busTrace s, ∀ d, acc.rdata? = some d → d = s.memRead acc.addr) ∧
      t.out = s.out ++ (outPulse s).toList

/-- 00_scope.md section 3 (`mem_rdata`) and 20_memory.md section 2: the bytes that come in on the memory port are all a
step learns of memory. Over any other memory that answers the step's reads with the same bytes, the step makes the same
accesses and gives the same next state, with that memory changed by the same writes. That the access list is the step's
own is the model's reading (log 20, 27). -/
def Obligations.MemoryIsSeenOnlyThroughReadData : Prop :=
  ∀ (s t : State) (m : Memory), step s = .next t →
    (∀ acc ∈ busTrace s, ∀ d, acc.rdata? = some d → Memory.read m acc.addr = d) →
    busTrace { s with mem := m } = busTrace s ∧
      step { s with mem := m } = .next { t with mem := (busTrace s).foldl Access.applyTo m }

/-- 10_state.md section 2, the table of registers written: a register outside an instruction's row keeps its value. -/
def Obligations.RegistersWrittenAreListed : Prop :=
  ∀ (i : Instr) (s t : State) (r : Reg), exec i s = .next t → ¬ mayWrite i r → t.getReg r = s.getReg r

/-- 40_dispatch.md R88: after a generic-class or ALU-class instruction that the dispatcher routes (halt is never routed)
and that executes without fault, `pc` is `(pc0 + n + 1) mod 256`, with `n` its number of operand bytes. -/
def Obligations.RoutedSequentialInstructionAdvancesPc : Prop :=
  ∀ (i : Instr) (s t : State), i.op.row.cls = .generic ∨ i.op.row.cls = .alu → i ≠ .hlt → s.status = .running →
    exec i s = .next t → t.status ≠ .faulted → t.pc.toNat = (s.pc.toNat + i.operandBytes.length + 1) % 256

/-- 20_memory.md section 4 (instruction fetch) and 70_reset_and_hazards.md section 2: a byte stored is what the next fetch of that address reads, with no synchronisation. -/
def Obligations.StoreIsSeenByNextFetch : Prop :=
  ∀ (s : State) (a b : Byte) (ha : a.toNat < 8) (hb : b.toNat < 8), ∃ t, exec (.st a b) s = .next t ∧
    (fetch { t with pc := s.getReg (reg a ha) }).ir = s.getReg (reg b hb)

/-- 40_dispatch.md R93: infinite runs exist, and a running core on a jump to the jump's own address is in one: it is
running, in the same state, after any number of steps, neither halted nor faulted. -/
def Obligations.SelfJumpRunsForever : Prop :=
  (∃ s : State, ∀ k, ∃ t, Sys2Proof.core.run k s = .next t ∧ t.status = .running) ∧
  ∀ (s : State) (a : Byte) (ha : a.toNat < 8), s.status = .running →
    decode (fetch s).ir (fetch s).a (fetch s).b = .ok (.jmp a) → s.getReg (reg a ha) = s.pc →
    ∀ k, Sys2Proof.core.run k s = .next s

/-- 60_exceptions.md sections 1 and 3: a halted or faulted core stays as it is: every register, flag, byte of memory
and output value is kept for the host, and no step leads anywhere else (the model's answer to the missing step: log 9). -/
def Obligations.StoppedCoreKeepsItsState : Prop :=
  ∀ s t : State, s.status ≠ .running → Reaches s t → t = s

/-- 70_reset_and_hazards.md section 3 and 40_dispatch.md section 3: a run that halts halts in one state only, is faulted
in none of its states, and its output at the end is the output of every earlier state followed by later prints. -/
def Obligations.HaltedRunIsSafeAndUnique : Prop :=
  ∀ s t : State, HaltsIn s t → SafeRun s ∧ (∀ u, HaltsIn s u → u = t) ∧
    ∀ u, Reaches s u → ∃ vs, t.out = u.out ++ vs

/-- 41_generic.md (push and pop): a push and then a pop of the same register, R7 among them, restores every register,
the stack pointer among them. For R7 this rests on the literal order of decision D17, the spec's own choice (log 10). -/
def Obligations.PushThenPopRestoresRegisters : Prop :=
  ∀ (s : State) (a : Byte), a.toNat < 8 → ∃ t u, exec (.push a) s = .next t ∧ exec (.pop a) t = .next u ∧
    RegsKeptExcept [] s u ∧ u.pc = s.pc + 4 ∧ MemKeptExcept [s.decSp.sp] s u

/-- 43_control_flow.md R147: a call pushes the address after it, and a return from any later state with the same stack
pointer and the same byte there resumes exactly there; a second call nested inside returns to its own caller and then
to the outer one. No register but the stack pointer is written: there is no link register. -/
def Obligations.ReturnResumesAfterItsCall : Prop :=
  ∀ (s : State) (a : Byte), a.toNat < 8 → ∃ t, exec (.call a) s = .next t ∧ RegsKeptExcept [7] s t ∧
    t.memRead t.sp = s.pc + 2 ∧
    (∀ u : State, u.sp = t.sp → u.memRead t.sp = t.memRead t.sp →
      ∃ v, exec .ret u = .next v ∧ v.pc = s.pc + 2 ∧ v.sp = s.sp) ∧
    (∀ (u : State) (c : Byte), c.toNat < 8 → u.sp = t.sp → u.memRead t.sp = t.memRead t.sp →
      ∃ w, exec (.call c) u = .next w ∧
        ∀ x : State, x.sp = w.sp → x.memRead w.sp = w.memRead w.sp → x.memRead t.sp = w.memRead t.sp →
          ∃ y, exec .ret x = .next y ∧ y.pc = u.pc + 2 ∧
            ∀ z : State, z.sp = y.sp → z.memRead y.sp = y.memRead y.sp →
              ∃ v, exec .ret z = .next v ∧ v.pc = s.pc + 2 ∧ v.sp = s.sp)

/-- 43_control_flow.md section 2: a compare and then a conditional jump branches on the equality of the compared
registers. -/
def Obligations.CompareThenJumpBranchesOnEquality : Prop :=
  ∀ (s : State) (a b : Byte) (ha : a.toNat < 8) (hb : b.toNat < 8), ∃ t, exec (.cmp a b) s = .next t ∧
    ∀ (u : State) (c : Byte) (hc : c.toNat < 8), u.fl = t.fl →
      (∃ v, exec (.jeq c) u = .next v ∧
        v.pc = if s.getReg (reg a ha) = s.getReg (reg b hb) then u.getReg (reg c hc) else u.pc + 2) ∧
      (∃ v, exec (.jne c) u = .next v ∧
        v.pc = if s.getReg (reg a ha) = s.getReg (reg b hb) then u.pc + 2 else u.getReg (reg c hc))

/-! ## Reset, load and output -/

/-- 10_state.md section 7: the state after reset, from any state. R7 and memory are the source's; R0-R6, `pc` and `fl`
are decision D9, the spec's own choice (log 4). The status running and the step that follows are the model's reading of
reset as the state with the empty image loaded (log 13): the spec has running once the load completes. -/
def Obligations.ResetLeavesStatedValues : Prop :=
  ∀ s : State, (∀ a, (hostReset s).memRead a = 0) ∧ (∀ r, r ≠ 7 → (hostReset s).getReg r = 0) ∧
    (hostReset s).getReg 7 = 0xF4 ∧ (hostReset s).pc = 0 ∧ (hostReset s).fl = 0 ∧
    (hostReset s).status = .running ∧ (hostReset s).fault = none ∧ (hostReset s).out = [] ∧
    ∃ t, step (hostReset s) = .next t

/-- 20_memory.md R41: every cell is 0 after reset, the loader writes the image from address 0, and the cells the image
does not cover stay 0. -/
def Obligations.LoadedMemoryIsImageThenZeros : Prop :=
  (∀ a, State.reset.memRead a = 0) ∧
    ∀ (img : List Byte) (t : State), boot img = some t →
      ∀ a : Byte, t.memRead a = (img[a.toNat]?).getD 0

/-- 70_reset_and_hazards.md section 1: a load of at most 256 bytes touches memory alone; a longer image is refused
(decision D15, the spec's own choice, log 14). That the load leaves the status as it was is the model's reading, in
which reset already gives running (log 13): a halted core stays halted. -/
def Obligations.LoadTouchesMemoryAlone : Prop :=
  ∀ (img : List Byte) (s : State),
    (img.length ≤ 256 → ∃ t, hostLoad img s = some t ∧ t = { s with mem := t.mem } ∧
      ∀ a : Byte, t.memRead a = (img[a.toNat]?).getD (s.memRead a)) ∧
    (256 < img.length → hostLoad img s = none)

/-- 10_state.md section 7: with the stack pointer at its reset value, the first push writes address 0xF3 and no other.
The value of a first PUSH R7 is decision D17, the spec's own choice (log 10). -/
def Obligations.FirstPushWritesBelowResetStack : Prop :=
  State.reset.sp = 0xF4 ∧ ∀ (s : State) (a : Byte) (ha : a.toNat < 8), s.sp = State.reset.sp →
    ∃ t, exec (.push a) s = .next t ∧ t.sp = 0xF3 ∧
      t.memRead 0xF3 = (if reg a ha = 7 then 0xF3 else s.getReg (reg a ha)) ∧ MemKeptExcept [0xF3] s t

/-- 60_exceptions.md section 3 by decision D11, the spec's own choice (log 19): each value is one line, its unsigned
decimal numeral with no leading zero, then a line feed; the text of a run is its lines in order. -/
def Obligations.OutputLineIsDecimalNumeral : Prop :=
  (∀ v : Byte, ∃ ds : List Char, renderLine v = ds ++ [Char.ofNat 0x0A] ∧ ds ≠ [] ∧
    (∀ c ∈ ds, 48 ≤ c.toNat ∧ c.toNat ≤ 57) ∧ (ds.head? = some '0' → v = 0 ∧ ds.length = 1) ∧
    ds.foldl (fun n c => 10 * n + (c.toNat - 48)) 0 = v.toNat) ∧
    renderOutput [] = [] ∧ ∀ (vs : List Byte) (v : Byte), renderOutput (vs ++ [v]) = renderOutput vs ++ renderLine v

/-! ## Generic instructions -/

/-- 41_generic.md (HLT) and 40_dispatch.md section 2: the run ends, `pc` stays at the halt instruction, all else stays. -/
def Obligations.HaltStopsInPlace : Prop :=
  ∀ s : State, ∃ t, exec .hlt s = .next t ∧ t.status = .halted ∧ t.pc = s.pc ∧ t.fault = s.fault ∧
    RegsKeptExcept [] s t ∧ t.fl = s.fl ∧ MemKeptExcept [] s t ∧ t.out = s.out

/-- 41_generic.md (LDI): the register takes the immediate byte unchanged, any byte at all. -/
def Obligations.LoadImmediateSetsRegister : Prop :=
  ∀ (s : State) (a imm : Byte) (ha : a.toNat < 8), ∃ t, exec (.ldi a imm) s = .next t ∧
    t.getReg (reg a ha) = imm ∧ t.pc = s.pc + 3 ∧
    RegsKeptExcept [reg a ha] s t ∧ t.fl = s.fl ∧ MemKeptExcept [] s t ∧ t.out = s.out ∧ RunKept s t

/-- 41_generic.md (ST): the byte at the address in `x[a]` takes `x[b]`; no other byte and no register changes. -/
def Obligations.StoreWritesAddressedByte : Prop :=
  ∀ (s : State) (a b : Byte) (ha : a.toNat < 8) (hb : b.toNat < 8), ∃ t, exec (.st a b) s = .next t ∧
    t.memRead (s.getReg (reg a ha)) = s.getReg (reg b hb) ∧ t.pc = s.pc + 3 ∧
    RegsKeptExcept [] s t ∧ t.fl = s.fl ∧ MemKeptExcept [s.getReg (reg a ha)] s t ∧ t.out = s.out ∧ RunKept s t

/-- 41_generic.md (PUSH): the stack pointer goes down by 1 mod 256 and the byte there takes the register, read after
the decrement; for R7 that is the decremented stack pointer by decision D17, the spec's own choice (log 10). -/
def Obligations.PushStoresBelowStackPointer : Prop :=
  ∀ (s : State) (a : Byte) (ha : a.toNat < 8), ∃ t, exec (.push a) s = .next t ∧
    s.decSp.sp = s.sp - 1 ∧ t.getReg 7 = s.decSp.sp ∧
    t.memRead s.decSp.sp = (if reg a ha = 7 then s.sp - 1 else s.getReg (reg a ha)) ∧ t.pc = s.pc + 2 ∧
    RegsKeptExcept [7] s t ∧ t.fl = s.fl ∧ MemKeptExcept [s.decSp.sp] s t ∧ t.out = s.out ∧ RunKept s t

/-- 41_generic.md (POP): the register takes the byte at the stack pointer, then R7 goes up by 1 mod 256; `POP R7` leaves
the popped byte plus one by decision D17, the spec's own choice (log 10). -/
def Obligations.PopLoadsFromStackPointer : Prop :=
  ∀ (s : State) (a : Byte) (ha : a.toNat < 8), ∃ t, exec (.pop a) s = .next t ∧
    (reg a ha ≠ 7 → t.getReg (reg a ha) = s.memRead s.sp ∧ t.getReg 7 = s.sp + 1) ∧
    (reg a ha = 7 → t.getReg 7 = s.memRead s.sp + 1) ∧ t.pc = s.pc + 2 ∧
    RegsKeptExcept [reg a ha, 7] s t ∧ t.fl = s.fl ∧ MemKeptExcept [] s t ∧ t.out = s.out ∧ RunKept s t

/-- 41_generic.md (PRN): the register's value is appended to the output. -/
def Obligations.PrintAppendsRegister : Prop :=
  ∀ (s : State) (a : Byte) (ha : a.toNat < 8), ∃ t, exec (.prn a) s = .next t ∧
    t.out = s.out ++ [s.getReg (reg a ha)] ∧ t.pc = s.pc + 2 ∧
    RegsKeptExcept [] s t ∧ t.fl = s.fl ∧ MemKeptExcept [] s t ∧ RunKept s t

/-! ## ALU instructions -/

/-- 42_alu.md (ADD): the sum mod 256; no flag is written. -/
def Obligations.AddWrapsModulo256 : Prop :=
  ∀ (s : State) (a b : Byte) (ha : a.toNat < 8) (hb : b.toNat < 8), ∃ t, exec (.add a b) s = .next t ∧
    (t.getReg (reg a ha)).toNat = ((s.getReg (reg a ha)).toNat + (s.getReg (reg b hb)).toNat) % 256 ∧
    t.pc = s.pc + 3 ∧
    RegsKeptExcept [reg a ha] s t ∧ t.fl = s.fl ∧ MemKeptExcept [] s t ∧ t.out = s.out ∧ RunKept s t

/-- 42_alu.md (SUB): the integer difference reduced into 0..255; no flag is written. -/
def Obligations.SubtractWrapsModulo256 : Prop :=
  ∀ (s : State) (a b : Byte) (ha : a.toNat < 8) (hb : b.toNat < 8), ∃ t, exec (.sub a b) s = .next t ∧
    ((t.getReg (reg a ha)).toNat : Int) =
      (((s.getReg (reg a ha)).toNat : Int) - ((s.getReg (reg b hb)).toNat : Int)) % 256 ∧
    t.pc = s.pc + 3 ∧
    RegsKeptExcept [reg a ha] s t ∧ t.fl = s.fl ∧ MemKeptExcept [] s t ∧ t.out = s.out ∧ RunKept s t

/-- 42_alu.md (MUL): the low 8 bits of the product; no flag is written. -/
def Obligations.MultiplyKeepsLowByte : Prop :=
  ∀ (s : State) (a b : Byte) (ha : a.toNat < 8) (hb : b.toNat < 8), ∃ t, exec (.mul a b) s = .next t ∧
    (t.getReg (reg a ha)).toNat = ((s.getReg (reg a ha)).toNat * (s.getReg (reg b hb)).toNat) % 256 ∧
    t.pc = s.pc + 3 ∧
    RegsKeptExcept [reg a ha] s t ∧ t.fl = s.fl ∧ MemKeptExcept [] s t ∧ t.out = s.out ∧ RunKept s t

/-- 42_alu.md (DIV): with a non-zero divisor, the quotient `q` with `q * d <= x < (q + 1) * d`; no flag is written.
That the quotient is truncated is decision D13, the spec's own reading (log 11). -/
def Obligations.DivideTruncates : Prop :=
  ∀ (s : State) (a b : Byte) (ha : a.toNat < 8) (hb : b.toNat < 8), s.getReg (reg b hb) ≠ 0 →
    ∃ t, exec (.div a b) s = .next t ∧
      (t.getReg (reg a ha)).toNat * (s.getReg (reg b hb)).toNat ≤ (s.getReg (reg a ha)).toNat ∧
      (s.getReg (reg a ha)).toNat < ((t.getReg (reg a ha)).toNat + 1) * (s.getReg (reg b hb)).toNat ∧
      t.pc = s.pc + 3 ∧
      RegsKeptExcept [reg a ha] s t ∧ t.fl = s.fl ∧ MemKeptExcept [] s t ∧ t.out = s.out ∧ RunKept s t

/-- 42_alu.md (CMP): exactly one flag bit is set, by unsigned comparison, and every other bit of `fl` is 0, whatever it
was; no register changes. The bit positions are decision D10, the spec's own choice (log 3). -/
def Obligations.CompareSetsExactlyOneFlag : Prop :=
  ∀ (s : State) (a b : Byte) (ha : a.toNat < 8) (hb : b.toNat < 8), ∃ t, exec (.cmp a b) s = .next t ∧
    ((s.getReg (reg a ha)).toNat < (s.getReg (reg b hb)).toNat → t.fl = 0b00000100) ∧
    ((s.getReg (reg a ha)).toNat > (s.getReg (reg b hb)).toNat → t.fl = 0b00000010) ∧
    ((s.getReg (reg a ha)).toNat = (s.getReg (reg b hb)).toNat → t.fl = 0b00000001) ∧
    t.pc = s.pc + 3 ∧
    RegsKeptExcept [] s t ∧ MemKeptExcept [] s t ∧ t.out = s.out ∧ RunKept s t

/-! ## Control-flow instructions -/

/-- 43_control_flow.md (CALL): the return address `pc0 + 2` is stored below the stack pointer and `pc` takes the
register, read after the push; for R7 that is the decremented stack pointer by decision D17, the spec's own choice
(log 10). -/
def Obligations.CallPushesReturnAddress : Prop :=
  ∀ (s : State) (a : Byte) (ha : a.toNat < 8), ∃ t, exec (.call a) s = .next t ∧
    s.decSp.sp = s.sp - 1 ∧ t.getReg 7 = s.decSp.sp ∧ t.memRead s.decSp.sp = s.pc + 2 ∧
    t.pc = (if reg a ha = 7 then s.sp - 1 else s.getReg (reg a ha)) ∧
    RegsKeptExcept [7] s t ∧ t.fl = s.fl ∧ MemKeptExcept [s.decSp.sp] s t ∧ t.out = s.out ∧ RunKept s t

/-- 43_control_flow.md (RET): `pc` takes the byte at the stack pointer, which goes up by 1 mod 256. -/
def Obligations.ReturnPopsProgramCounter : Prop :=
  ∀ s : State, ∃ t, exec .ret s = .next t ∧ t.pc = s.memRead s.sp ∧ t.getReg 7 = s.sp + 1 ∧
    RegsKeptExcept [7] s t ∧ t.fl = s.fl ∧ MemKeptExcept [] s t ∧ t.out = s.out ∧ RunKept s t

/-- 43_control_flow.md (JMP): `pc` takes the register. -/
def Obligations.JumpSetsProgramCounter : Prop :=
  ∀ (s : State) (a : Byte) (ha : a.toNat < 8), ∃ t, exec (.jmp a) s = .next t ∧ t.pc = s.getReg (reg a ha) ∧
    RegsKeptExcept [] s t ∧ t.fl = s.fl ∧ MemKeptExcept [] s t ∧ t.out = s.out ∧ RunKept s t

/-- 43_control_flow.md (JEQ): the jump is taken exactly when bit E is set, else the next instruction follows. That E is
bit 0 is decision D10, the spec's own choice (log 3). -/
def Obligations.JumpIfEqualTestsEqualBit : Prop :=
  ∀ (s : State) (a : Byte) (ha : a.toNat < 8), ∃ t, exec (.jeq a) s = .next t ∧
    t.pc = (if s.fl.getLsbD 0 then s.getReg (reg a ha) else s.pc + 2) ∧
    RegsKeptExcept [] s t ∧ t.fl = s.fl ∧ MemKeptExcept [] s t ∧ t.out = s.out ∧ RunKept s t

/-- 43_control_flow.md (JNE): the jump is taken exactly when bit E is clear, else the next instruction follows. That E
is bit 0 is decision D10, the spec's own choice (log 3). -/
def Obligations.JumpIfNotEqualTestsEqualBit : Prop :=
  ∀ (s : State) (a : Byte) (ha : a.toNat < 8), ∃ t, exec (.jne a) s = .next t ∧
    t.pc = (if s.fl.getLsbD 0 then s.pc + 2 else s.getReg (reg a ha)) ∧
    RegsKeptExcept [] s t ∧ t.fl = s.fl ∧ MemKeptExcept [] s t ∧ t.out = s.out ∧ RunKept s t
end

