-- ==== Sys2Proof/Laws/Decode.lean ====
section
/-! SUPPORT. The laws of the opcode map and the decoder: distinct bytes, and when a byte decodes. -/

namespace Sys2Proof

/-- No two rows of R68 share a byte. -/
theorem opcode_bytes_distinct : Opcode.all.Pairwise (fun p q => p.byte ≠ q.byte) := by decide

theorem Opcode.mem_all (op : Opcode) : op ∈ Opcode.all := by cases op <;> decide

theorem Opcode.byte_injective {p q : Opcode} (h : p.byte = q.byte) : p = q := by
  cases p <;> cases q <;> first | rfl | (exact absurd h (by decide))

/-- Exact match of the whole byte (R64). -/
theorem Opcode.ofByte?_eq_some {ir : Byte} {op : Opcode} : Opcode.ofByte? ir = some op ↔ op.byte = ir := by
  constructor
  · intro h
    simpa using List.find?_some h
  · rintro rfl
    cases op <;> decide

theorem Opcode.ofByte?_eq_none {ir : Byte} : Opcode.ofByte? ir = none ↔ ∀ op : Opcode, op.byte ≠ ir := by
  rw [Option.eq_none_iff_forall_ne_some]
  exact forall_congr' fun op => not_congr Opcode.ofByte?_eq_some

/-- The class selector of a table byte names the row's class, so never the selector 11. -/
theorem Opcode.classOf_byte (op : Opcode) : classOf op.byte = some op.row.cls := by cases op <;> decide

theorem Opcode.operandCount_byte (op : Opcode) : operandCount op.byte = op.row.format.operands := by
  cases op <;> decide

theorem classOf_eq_none {ir : Byte} : classOf ir = none ↔ classSelector ir = 3 := by
  have : classSelector ir < 4 := Nat.mod_lt _ (by decide)
  unfold classOf
  interval_cases classSelector ir <;> decide

/-- A byte of the table decodes to its instruction on the operand slots. -/
@[simp] theorem decode_byte (op : Opcode) (a b : Byte) : decode op.byte a b = .ok (op.instr a b) := by
  cases op <;> rfl

/-- What decodes is a byte of the table with its operand slots. -/
theorem decode_eq_ok {ir a b : Byte} {i : Instr} :
    decode ir a b = .ok i ↔ ∃ op : Opcode, op.byte = ir ∧ i = op.instr a b := by
  constructor
  · intro h
    unfold decode decodeByte at h
    dsimp only at h
    split at h
    next hi => exact ⟨.hlt, hi.symm, by simpa [Opcode.instr, eq_comm] using h⟩
    · split at h
      · cases h
      · split at h
        · cases h
        next op hop => exact ⟨op, Opcode.ofByte?_eq_some.mp hop, by simpa [eq_comm] using h⟩
  · rintro ⟨op, rfl, rfl⟩
    exact decode_byte op a b

/-- Selector 11 is rejected by its own name (R62). -/
theorem decode_unknownClass {ir a b : Byte} (h : classSelector ir = 3) : decode ir a b = .error .unknownClass := by
  have hc := classOf_eq_none.mpr h
  have hne : ir ≠ Opcode.hlt.byte := by
    rintro rfl
    exact absurd h (by decide)
  simp [decode, decodeByte, hc, hne]

/-- A byte of a class that is none of its constants is rejected by its own name (R64). -/
theorem decode_unknownOpcode {ir a b : Byte} (h : classSelector ir ≠ 3) (hn : ∀ op : Opcode, op.byte ≠ ir) :
    decode ir a b = .error .unknownOpcode := by
  obtain ⟨c, hc⟩ := Option.ne_none_iff_exists'.mp (mt classOf_eq_none.mp h)
  simp [decode, decodeByte, hc, Opcode.ofByte?_eq_none.mpr hn, (hn .hlt).symm]

/-- Everything a rejection can be. -/
theorem decode_eq_error {ir a b : Byte} {e : DecodeError} (h : decode ir a b = .error e) :
    (∀ op : Opcode, op.byte ≠ ir) ∧
      ((e = .unknownClass ∧ classSelector ir = 3) ∨ (e = .unknownOpcode ∧ classSelector ir ≠ 3)) := by
  have hn : ∀ op : Opcode, op.byte ≠ ir := by
    rintro op rfl
    rw [decode_byte] at h
    cases h
  refine ⟨hn, ?_⟩
  by_cases hs : classSelector ir = 3
  · rw [decode_unknownClass hs] at h
    cases h
    exact .inl ⟨rfl, hs⟩
  · rw [decode_unknownOpcode hs hn] at h
    cases h
    exact .inr ⟨rfl, hs⟩

@[simp] theorem Opcode.instr_op (op : Opcode) (a b : Byte) : (op.instr a b).op = op := by cases op <;> rfl

end Sys2Proof
end

