-- ==== Sys2Proof/Laws/Flags.lean ====
section
/-! SUPPORT. The laws of the flag byte: what a compare leaves and what a jump reads of it. -/

namespace Sys2Proof.Machine

/-- A compare leaves one of the three single-flag values (42_alu.md R124). -/
theorem compareFlags_cases (u v : Byte) :
    (u.toNat < v.toNat ∧ compareFlags u v = flagL) ∨ (v.toNat < u.toNat ∧ compareFlags u v = flagG) ∨
      (u = v ∧ compareFlags u v = flagE) := by
  unfold compareFlags
  split
  · exact .inl ⟨‹_›, rfl⟩
  · split
    · exact .inr (.inl ⟨‹_›, rfl⟩)
    · exact .inr (.inr ⟨BitVec.toNat_inj.mp (by omega), rfl⟩)

@[simp] theorem equalSet_flagE : equalSet flagE = true := by decide
@[simp] theorem equalSet_flagG : equalSet flagG = false := by decide
@[simp] theorem equalSet_flagL : equalSet flagL = false := by decide
@[simp] theorem equalSet_zero : equalSet 0 = false := by decide

end Sys2Proof.Machine
end

