-- ==== Sys2Proof/Laws/Memory.lean ====
section
/-! SUPPORT. The laws of memory: a read after a write, and that every memory operation keeps the canonical form. -/

namespace Sys2Proof.Machine

@[simp] theorem Memory.read_nil (a : Byte) : Memory.read [] a = 0 := rfl

theorem Memory.read_cons (c : Host.Cell) (m : Memory) (a : Byte) :
    Memory.read (c :: m) a = if c.1 = a.toNat then c.2 else Memory.read m a := rfl

/-- An address no cell holds reads as 0 (20_memory.md R41). -/
theorem Memory.read_of_forall_ne {m : Memory} {a : Byte} (h : ∀ c ∈ m, c.1 ≠ a.toNat) : Memory.read m a = 0 := by
  induction m with
  | nil => rfl
  | cons c m ih =>
    rw [Memory.read_cons, if_neg (h c (by simp)), ih (fun d hd => h d (by simp [hd]))]

/-- A listed cell is what a canonical memory reads at its address. -/
theorem Memory.read_of_mem {m : Memory} (hm : m.Pairwise (fun c d => c.1 < d.1)) {c : Host.Cell} (hc : c ∈ m)
    {a : Byte} (ha : c.1 = a.toNat) : Memory.read m a = c.2 := by
  induction m with
  | nil => cases hc
  | cons d m ih =>
    obtain ⟨hd, hm⟩ := List.pairwise_cons.mp hm
    rcases List.mem_cons.mp hc with rfl | hc
    · simp [Memory.read_cons, ha]
    · have : d.1 < c.1 := hd c hc
      rw [Memory.read_cons, if_neg (by omega), ih hm hc]

theorem Memory.mem_insert {c d : Host.Cell} {m : Memory} : d ∈ Memory.insert c m ↔ d = c ∨ d ∈ m := by
  induction m with
  | nil => simp [Memory.insert]
  | cons e m ih =>
    unfold Memory.insert
    split <;> simp_all [or_left_comm]

theorem Memory.pairwise_insert {c : Host.Cell} {m : Memory} (hm : m.Pairwise (fun c d => c.1 < d.1))
    (hc : ∀ d ∈ m, d.1 ≠ c.1) : (Memory.insert c m).Pairwise (fun c d => c.1 < d.1) := by
  induction m with
  | nil => simp [Memory.insert]
  | cons e m ih =>
    obtain ⟨he, hm⟩ := List.pairwise_cons.mp hm
    unfold Memory.insert
    split
    next h =>
      refine List.pairwise_cons.mpr ⟨fun d hd => ?_, List.pairwise_cons.mpr ⟨he, hm⟩⟩
      rcases List.mem_cons.mp hd with rfl | hd
      · exact h
      · exact Nat.lt_trans h (he d hd)
    next h =>
      refine List.pairwise_cons.mpr ⟨fun d hd => ?_, ih hm (fun d hd => hc d (by simp [hd]))⟩
      have hec := hc e (by simp)
      rcases Memory.mem_insert.mp hd with rfl | hd
      · omega
      · exact he d hd

theorem Memory.read_insert {c : Host.Cell} {m : Memory} (hc : ∀ d ∈ m, d.1 ≠ c.1) (a : Byte) :
    Memory.read (Memory.insert c m) a = if c.1 = a.toNat then c.2 else Memory.read m a := by
  induction m with
  | nil => rfl
  | cons e m ih =>
    have hec := hc e (by simp)
    have ih := ih (fun d hd => hc d (by simp [hd]))
    unfold Memory.insert
    split
    · rw [Memory.read_cons]
    · rw [Memory.read_cons, ih, Memory.read_cons]
      split <;> split <;> first | rfl | omega

theorem Memory.read_filter (m : Memory) (a b : Byte) :
    Memory.read (m.filter (fun c => c.1 != b.toNat)) a = if a = b then 0 else Memory.read m a := by
  induction m with
  | nil => simp
  | cons c m ih =>
    have hab : a = b ↔ a.toNat = b.toNat := BitVec.toNat_inj.symm
    by_cases hc : c.1 = b.toNat
    · rw [List.filter_cons_of_neg (by simp [hc]), ih, Memory.read_cons]
      split
      · rfl
      · rw [if_neg (by rw [hc]; simpa [hab, eq_comm] using ‹¬a = b›)]
    · rw [List.filter_cons_of_pos (by simp [hc]), Memory.read_cons, ih, Memory.read_cons]
      split
      · rw [if_neg (fun h => hc (by rw [‹c.1 = a.toNat›, h]))]
      · rfl

/-- A read after a write: the value written at its address, what was there before anywhere else (20_memory.md R42, R47). -/
theorem Memory.read_write (m : Memory) (a v b : Byte) :
    Memory.read (Memory.write m a v) b = if b = a then v else Memory.read m b := by
  unfold Memory.write
  split
  next hv =>
    rw [Memory.read_filter]
    split
    · exact hv.symm
    · rfl
  next hv =>
    rw [Memory.read_insert (by simp), Memory.read_filter]
    by_cases h : b = a
    · subst h; simp
    · have : ¬ a.toNat = b.toNat := fun e => h (BitVec.toNat_inj.mp e.symm)
      simp [h, this]

@[simp] theorem Memory.wf_nil : Memory.wf [] := by decide

/-- Every write keeps the canonical form (log 12). -/
theorem Memory.wf_write {m : Memory} (hm : Memory.wf m) (a v : Byte) : Memory.wf (Memory.write m a v) := by
  obtain ⟨hp, hall⟩ := hm
  have hfp := hp.filter (fun c => c.1 != a.toNat)
  unfold Memory.write
  split
  · exact ⟨hfp, fun c hc => hall c (List.mem_filter.mp hc).1⟩
  next hv =>
    refine ⟨Memory.pairwise_insert hfp (by simp), fun c hc => ?_⟩
    rcases Memory.mem_insert.mp hc with rfl | hc
    · exact ⟨a.isLt, hv⟩
    · exact hall c (List.mem_filter.mp hc).1

end Sys2Proof.Machine
end

