-- ==== Sys2Proof/Laws/State.lean ====
section
/-! SUPPORT. One lemma per field per update, and the small laws of registers, the stack and the program counter. -/

namespace Sys2Proof.Machine

variable (s : State) (r q : Reg) (a b v : Byte) (op : Opcode) (c : FaultCause) (ir : Byte)

@[simp] theorem State.setReg_mem : (s.setReg r v).mem = s.mem := rfl
@[simp] theorem State.setReg_pc : (s.setReg r v).pc = s.pc := rfl
@[simp] theorem State.setReg_fl : (s.setReg r v).fl = s.fl := rfl
@[simp] theorem State.setReg_status : (s.setReg r v).status = s.status := rfl
@[simp] theorem State.setReg_fault : (s.setReg r v).fault = s.fault := rfl
@[simp] theorem State.setReg_out : (s.setReg r v).out = s.out := rfl
@[simp] theorem State.setReg_memRead : (s.setReg r v).memRead a = s.memRead a := rfl

@[simp] theorem State.memWrite_mem : (s.memWrite a v).mem = Memory.write s.mem a v := rfl
@[simp] theorem State.memWrite_x : (s.memWrite a v).x = s.x := rfl
@[simp] theorem State.memWrite_pc : (s.memWrite a v).pc = s.pc := rfl
@[simp] theorem State.memWrite_fl : (s.memWrite a v).fl = s.fl := rfl
@[simp] theorem State.memWrite_status : (s.memWrite a v).status = s.status := rfl
@[simp] theorem State.memWrite_fault : (s.memWrite a v).fault = s.fault := rfl
@[simp] theorem State.memWrite_out : (s.memWrite a v).out = s.out := rfl
@[simp] theorem State.memWrite_getReg : (s.memWrite a v).getReg r = s.getReg r := rfl
@[simp] theorem State.memWrite_sp : (s.memWrite a v).sp = s.sp := rfl

@[simp] theorem State.setPc_mem : (s.setPc v).mem = s.mem := rfl
@[simp] theorem State.setPc_x : (s.setPc v).x = s.x := rfl
@[simp] theorem State.setPc_pc : (s.setPc v).pc = v := rfl
@[simp] theorem State.setPc_fl : (s.setPc v).fl = s.fl := rfl
@[simp] theorem State.setPc_status : (s.setPc v).status = s.status := rfl
@[simp] theorem State.setPc_fault : (s.setPc v).fault = s.fault := rfl
@[simp] theorem State.setPc_out : (s.setPc v).out = s.out := rfl
@[simp] theorem State.setPc_getReg : (s.setPc v).getReg r = s.getReg r := rfl
@[simp] theorem State.setPc_memRead : (s.setPc v).memRead a = s.memRead a := rfl
@[simp] theorem State.setPc_sp : (s.setPc v).sp = s.sp := rfl

@[simp] theorem State.advance_mem : (s.advance op).mem = s.mem := rfl
@[simp] theorem State.advance_x : (s.advance op).x = s.x := rfl
@[simp] theorem State.advance_pc : (s.advance op).pc = nextAddress op s.pc := rfl
@[simp] theorem State.advance_fl : (s.advance op).fl = s.fl := rfl
@[simp] theorem State.advance_status : (s.advance op).status = s.status := rfl
@[simp] theorem State.advance_fault : (s.advance op).fault = s.fault := rfl
@[simp] theorem State.advance_out : (s.advance op).out = s.out := rfl
@[simp] theorem State.advance_getReg : (s.advance op).getReg r = s.getReg r := rfl
@[simp] theorem State.advance_memRead : (s.advance op).memRead a = s.memRead a := rfl
@[simp] theorem State.advance_sp : (s.advance op).sp = s.sp := rfl

@[simp] theorem State.setFl_mem : (s.setFl v).mem = s.mem := rfl
@[simp] theorem State.setFl_x : (s.setFl v).x = s.x := rfl
@[simp] theorem State.setFl_pc : (s.setFl v).pc = s.pc := rfl
@[simp] theorem State.setFl_fl : (s.setFl v).fl = v := rfl
@[simp] theorem State.setFl_status : (s.setFl v).status = s.status := rfl
@[simp] theorem State.setFl_fault : (s.setFl v).fault = s.fault := rfl
@[simp] theorem State.setFl_out : (s.setFl v).out = s.out := rfl
@[simp] theorem State.setFl_getReg : (s.setFl v).getReg r = s.getReg r := rfl
@[simp] theorem State.setFl_memRead : (s.setFl v).memRead a = s.memRead a := rfl

@[simp] theorem State.emit_mem : (s.emit v).mem = s.mem := rfl
@[simp] theorem State.emit_x : (s.emit v).x = s.x := rfl
@[simp] theorem State.emit_pc : (s.emit v).pc = s.pc := rfl
@[simp] theorem State.emit_fl : (s.emit v).fl = s.fl := rfl
@[simp] theorem State.emit_status : (s.emit v).status = s.status := rfl
@[simp] theorem State.emit_fault : (s.emit v).fault = s.fault := rfl
@[simp] theorem State.emit_out : (s.emit v).out = s.out ++ [v] := rfl
@[simp] theorem State.emit_getReg : (s.emit v).getReg r = s.getReg r := rfl
@[simp] theorem State.emit_memRead : (s.emit v).memRead a = s.memRead a := rfl

@[simp] theorem State.halt_mem : s.halt.mem = s.mem := rfl
@[simp] theorem State.halt_x : s.halt.x = s.x := rfl
@[simp] theorem State.halt_pc : s.halt.pc = s.pc := rfl
@[simp] theorem State.halt_fl : s.halt.fl = s.fl := rfl
@[simp] theorem State.halt_status : s.halt.status = .halted := rfl
@[simp] theorem State.halt_fault : s.halt.fault = s.fault := rfl
@[simp] theorem State.halt_out : s.halt.out = s.out := rfl

@[simp] theorem State.faultEntry_mem : (s.faultEntry c ir).mem = s.mem := rfl
@[simp] theorem State.faultEntry_x : (s.faultEntry c ir).x = s.x := rfl
@[simp] theorem State.faultEntry_pc : (s.faultEntry c ir).pc = s.pc := rfl
@[simp] theorem State.faultEntry_fl : (s.faultEntry c ir).fl = s.fl := rfl
@[simp] theorem State.faultEntry_status : (s.faultEntry c ir).status = .faulted := rfl
@[simp] theorem State.faultEntry_fault : (s.faultEntry c ir).fault = some ⟨c, s.pc, ir⟩ := rfl
@[simp] theorem State.faultEntry_out : (s.faultEntry c ir).out = s.out := rfl

/-- A read of memory after a write (20_memory.md R42, R47). -/
@[simp] theorem State.memWrite_memRead : (s.memWrite a v).memRead b = if b = a then v else s.memRead b :=
  Memory.read_write s.mem a v b

/-- A register read after a register write (10_state.md R21). -/
@[simp] theorem State.setReg_getReg : (s.setReg r v).getReg q = if q = r then v else s.getReg q := by
  simp only [State.getReg, State.setReg, Fin.getElem_fin, Vector.getElem_set, Fin.ext_iff, eq_comm]

@[simp] theorem State.setReg_sp : (s.setReg r v).sp = if Config.spReg = r then v else s.sp := by
  simp [State.sp]

/-- The stack pointer is register 7 (10_state.md R22). -/
theorem State.getReg_spReg : s.getReg Config.spReg = s.sp := rfl

@[simp] theorem State.decSp_mem : s.decSp.mem = s.mem := rfl
@[simp] theorem State.decSp_pc : s.decSp.pc = s.pc := rfl
@[simp] theorem State.decSp_fl : s.decSp.fl = s.fl := rfl
@[simp] theorem State.decSp_status : s.decSp.status = s.status := rfl
@[simp] theorem State.decSp_fault : s.decSp.fault = s.fault := rfl
@[simp] theorem State.decSp_out : s.decSp.out = s.out := rfl
@[simp] theorem State.decSp_memRead : s.decSp.memRead a = s.memRead a := rfl
@[simp] theorem State.decSp_sp : s.decSp.sp = s.sp - 1 := by simp [State.decSp]
@[simp] theorem State.decSp_getReg : s.decSp.getReg q = if q = Config.spReg then s.sp - 1 else s.getReg q := by
  simp [State.decSp]

@[simp] theorem State.incSp_mem : s.incSp.mem = s.mem := rfl
@[simp] theorem State.incSp_pc : s.incSp.pc = s.pc := rfl
@[simp] theorem State.incSp_fl : s.incSp.fl = s.fl := rfl
@[simp] theorem State.incSp_status : s.incSp.status = s.status := rfl
@[simp] theorem State.incSp_fault : s.incSp.fault = s.fault := rfl
@[simp] theorem State.incSp_out : s.incSp.out = s.out := rfl
@[simp] theorem State.incSp_memRead : s.incSp.memRead a = s.memRead a := rfl
@[simp] theorem State.incSp_sp : s.incSp.sp = s.sp + 1 := by simp [State.incSp]
@[simp] theorem State.incSp_getReg : s.incSp.getReg q = if q = Config.spReg then s.sp + 1 else s.getReg q := by
  simp [State.incSp]

@[simp] theorem State.pushByte_mem : (s.pushByte v).mem = Memory.write s.mem (s.sp - 1) v := by
  simp [State.pushByte]
@[simp] theorem State.pushByte_pc : (s.pushByte v).pc = s.pc := rfl
@[simp] theorem State.pushByte_fl : (s.pushByte v).fl = s.fl := rfl
@[simp] theorem State.pushByte_status : (s.pushByte v).status = s.status := rfl
@[simp] theorem State.pushByte_fault : (s.pushByte v).fault = s.fault := rfl
@[simp] theorem State.pushByte_out : (s.pushByte v).out = s.out := rfl
@[simp] theorem State.pushByte_sp : (s.pushByte v).sp = s.sp - 1 := by simp [State.pushByte]
@[simp] theorem State.pushByte_getReg :
    (s.pushByte v).getReg q = if q = Config.spReg then s.sp - 1 else s.getReg q := by
  simp [State.pushByte]
@[simp] theorem State.pushByte_memRead :
    (s.pushByte v).memRead b = if b = s.sp - 1 then v else s.memRead b := by
  simp [State.pushByte]

/-- Storing bytes touches memory alone. -/
theorem State.storeBytes_eq (vs : List Byte) : s.storeBytes a vs = { s with mem := (s.storeBytes a vs).mem } := by
  induction vs generalizing s a with
  | nil => rfl
  | cons v vs ih =>
    unfold State.storeBytes
    rw [ih]
    rfl

/-- Three bytes stored at `pc` and after it (the host's word placement). -/
theorem State.storeBytes_three (u v w : Byte) : (s.storeBytes s.pc [u, v, w]).memRead a =
    if a = s.pc + 2 then w else if a = s.pc + 1 then v else if a = s.pc then u else s.memRead a := by
  have e : s.pc + 1#8 + 1#8 = s.pc + 2#8 := by rw [BitVec.add_assoc]; rfl
  simp [State.storeBytes, e]

/-- Storing bytes keeps the canonical form of memory. -/
theorem State.storeBytes_wf {s : State} (h : Memory.wf s.mem) (a : Byte) (vs : List Byte) :
    Memory.wf (s.storeBytes a vs).mem := by
  induction vs generalizing s a with
  | nil => exact h
  | cons v vs ih => exact ih (Memory.wf_write h a v) (a + 1)

end Sys2Proof.Machine
end

