-- ==== Sys2Proof/Laws/Operands.lean ====
section
/-! SUPPORT. What the register-operand check can do, said once; the meanings are read through these lemmas. -/

namespace Sys2Proof.Machine

/-- A byte names a register exactly when it is below 8, and then it names that number (30_encoding.md R67). -/
theorem regIndex?_eq_some {a : Byte} {r : Reg} : regIndex? a = some r ↔ a.toNat = r.val := by
  unfold regIndex?
  split
  · simp [Fin.ext_iff]
  · simp only [reduceCtorEq, false_iff]
    omega

@[simp] theorem regIndex?_of_lt {a : Byte} (h : a.toNat < 8) : regIndex? a = some ⟨a.toNat, h⟩ := by
  simp [regIndex?, h]

theorem regIndex?_eq_none {a : Byte} : regIndex? a = none ↔ 8 ≤ a.toNat := by
  unfold regIndex?
  split <;> simp <;> omega

variable {op : Opcode} {a b : Byte} {s t : State}

/-- A readable operand is handed on. -/
@[simp] theorem withReg_of_lt {k : Reg → Result} (h : a.toNat < 8) :
    withReg op a s k = k ⟨a.toNat, h⟩ := by simp [withReg, h]

/-- An operand of 8..255 raises IllegalRegister (40_dispatch.md R90). -/
@[simp] theorem withReg_of_ge {k : Reg → Result} (h : 8 ≤ a.toNat) :
    withReg op a s k = raise .illegalRegister op.byte s := by
  simp [withReg, regIndex?_eq_none.mpr h]

/-- Both operands readable: handed on. -/
@[simp] theorem withRegs_of_lt {k : Reg → Reg → Result} (ha : a.toNat < 8) (hb : b.toNat < 8) :
    withRegs op a b s k = k ⟨a.toNat, ha⟩ ⟨b.toNat, hb⟩ := by simp [withRegs, ha, hb]

/-- Either operand 8..255 raises IllegalRegister: which of the two comes first does not show (60_exceptions.md R165). -/
theorem withRegs_of_ge {k : Reg → Reg → Result} (h : 8 ≤ a.toNat ∨ 8 ≤ b.toNat) :
    withRegs op a b s k = raise .illegalRegister op.byte s := by
  unfold withRegs
  by_cases ha : a.toNat < 8
  · rw [withReg_of_lt ha, withReg_of_ge (by omega)]
  · rw [withReg_of_ge (by omega)]

/-- Everything a one-register instruction can do: fault on its operand, or go on with the register. -/
theorem withReg_next {k : Reg → Result} (h : withReg op a s k = .next t) :
    (8 ≤ a.toNat ∧ t = s.faultEntry .illegalRegister op.byte) ∨
      ∃ r : Reg, regIndex? a = some r ∧ k r = .next t := by
  unfold withReg at h
  split at h
  next r hr => exact .inr ⟨r, hr, h⟩
  next hr =>
    refine .inl ⟨regIndex?_eq_none.mp hr, ?_⟩
    simpa [raise, eq_comm] using h

/-- Everything a two-register instruction can do. -/
theorem withRegs_next {k : Reg → Reg → Result} (h : withRegs op a b s k = .next t) :
    ((8 ≤ a.toNat ∨ 8 ≤ b.toNat) ∧ t = s.faultEntry .illegalRegister op.byte) ∨
      ∃ ra rb : Reg, regIndex? a = some ra ∧ regIndex? b = some rb ∧ k ra rb = .next t := by
  obtain ⟨ha, ht⟩ | ⟨ra, hra, h⟩ := withReg_next h
  · exact .inl ⟨.inl ha, ht⟩
  · obtain ⟨hb, ht⟩ | ⟨rb, hrb, h⟩ := withReg_next h
    · exact .inl ⟨.inr hb, ht⟩
    · exact .inr ⟨ra, rb, hra, hrb, h⟩

end Sys2Proof.Machine
end

