-- ==== Sys2Proof/Laws/Exec.lean ====
section
/-! SUPPORT. One lemma per meaning on readable operands, and what a step is in terms of its decoded instruction. -/

namespace Sys2Proof.Machine

variable {a b : Byte} {s : State}

/-- The address after an instruction, from the format of its row (30_encoding.md R60, R65). -/
theorem nextAddress_eq (op : Opcode) (p : Byte) :
    nextAddress op p = p + BitVec.ofNat 8 (op.row.format.operands + 1) := by
  rw [nextAddress, Opcode.operandCount_byte]

@[simp] theorem nextAddress_ldi (p : Byte) : nextAddress .ldi p = p + 3 := nextAddress_eq .ldi p
@[simp] theorem nextAddress_st (p : Byte) : nextAddress .st p = p + 3 := nextAddress_eq .st p
@[simp] theorem nextAddress_push (p : Byte) : nextAddress .push p = p + 2 := nextAddress_eq .push p
@[simp] theorem nextAddress_pop (p : Byte) : nextAddress .pop p = p + 2 := nextAddress_eq .pop p
@[simp] theorem nextAddress_prn (p : Byte) : nextAddress .prn p = p + 2 := nextAddress_eq .prn p
@[simp] theorem nextAddress_add (p : Byte) : nextAddress .add p = p + 3 := nextAddress_eq .add p
@[simp] theorem nextAddress_sub (p : Byte) : nextAddress .sub p = p + 3 := nextAddress_eq .sub p
@[simp] theorem nextAddress_mul (p : Byte) : nextAddress .mul p = p + 3 := nextAddress_eq .mul p
@[simp] theorem nextAddress_div (p : Byte) : nextAddress .div p = p + 3 := nextAddress_eq .div p
@[simp] theorem nextAddress_cmp (p : Byte) : nextAddress .cmp p = p + 3 := nextAddress_eq .cmp p
@[simp] theorem nextAddress_call (p : Byte) : nextAddress .call p = p + 2 := nextAddress_eq .call p
@[simp] theorem nextAddress_jeq (p : Byte) : nextAddress .jeq p = p + 2 := nextAddress_eq .jeq p
@[simp] theorem nextAddress_jne (p : Byte) : nextAddress .jne p = p + 2 := nextAddress_eq .jne p

theorem exec_ldi (imm : Byte) (ha : a.toNat < 8) :
    exec (.ldi a imm) s = .next ((s.setReg ⟨a.toNat, ha⟩ imm).advance .ldi) := withReg_of_lt ha

theorem exec_st (ha : a.toNat < 8) (hb : b.toNat < 8) : exec (.st a b) s =
    .next ((s.memWrite (s.getReg ⟨a.toNat, ha⟩) (s.getReg ⟨b.toNat, hb⟩)).advance .st) := withRegs_of_lt ha hb

theorem exec_push (ha : a.toNat < 8) :
    exec (.push a) s = .next ((s.pushByte (s.decSp.getReg ⟨a.toNat, ha⟩)).advance .push) := withReg_of_lt ha

theorem exec_pop (ha : a.toNat < 8) :
    exec (.pop a) s = .next ((s.setReg ⟨a.toNat, ha⟩ s.topOfStack).incSp.advance .pop) := withReg_of_lt ha

theorem exec_prn (ha : a.toNat < 8) :
    exec (.prn a) s = .next ((s.emit (s.getReg ⟨a.toNat, ha⟩)).advance .prn) := withReg_of_lt ha

theorem exec_add (ha : a.toNat < 8) (hb : b.toNat < 8) : exec (.add a b) s =
    .next ((s.setReg ⟨a.toNat, ha⟩ (aluAdd (s.getReg ⟨a.toNat, ha⟩) (s.getReg ⟨b.toNat, hb⟩))).advance .add) :=
  withRegs_of_lt ha hb

theorem exec_sub (ha : a.toNat < 8) (hb : b.toNat < 8) : exec (.sub a b) s =
    .next ((s.setReg ⟨a.toNat, ha⟩ (aluSub (s.getReg ⟨a.toNat, ha⟩) (s.getReg ⟨b.toNat, hb⟩))).advance .sub) :=
  withRegs_of_lt ha hb

theorem exec_mul (ha : a.toNat < 8) (hb : b.toNat < 8) : exec (.mul a b) s =
    .next ((s.setReg ⟨a.toNat, ha⟩ (aluMul (s.getReg ⟨a.toNat, ha⟩) (s.getReg ⟨b.toNat, hb⟩))).advance .mul) :=
  withRegs_of_lt ha hb

theorem exec_div_zero (ha : a.toNat < 8) (hb : b.toNat < 8) (hz : s.getReg ⟨b.toNat, hb⟩ = 0) :
    exec (.div a b) s = raise .divideByZero Opcode.div.byte s :=
  (withRegs_of_lt ha hb).trans (if_pos hz)

theorem exec_div (ha : a.toNat < 8) (hb : b.toNat < 8) (hz : s.getReg ⟨b.toNat, hb⟩ ≠ 0) : exec (.div a b) s =
    .next ((s.setReg ⟨a.toNat, ha⟩ (aluDiv (s.getReg ⟨a.toNat, ha⟩) (s.getReg ⟨b.toNat, hb⟩))).advance .div) :=
  (withRegs_of_lt ha hb).trans (if_neg hz)

theorem exec_cmp (ha : a.toNat < 8) (hb : b.toNat < 8) : exec (.cmp a b) s =
    .next ((s.setFl (compareFlags (s.getReg ⟨a.toNat, ha⟩) (s.getReg ⟨b.toNat, hb⟩))).advance .cmp) :=
  withRegs_of_lt ha hb

theorem exec_call (ha : a.toNat < 8) : exec (.call a) s =
    .next ((s.pushByte (nextAddress .call s.pc)).setPc
      ((s.pushByte (nextAddress .call s.pc)).getReg ⟨a.toNat, ha⟩)) := withReg_of_lt ha

theorem exec_jmp (ha : a.toNat < 8) : exec (.jmp a) s = .next (s.setPc (s.getReg ⟨a.toNat, ha⟩)) := withReg_of_lt ha

theorem exec_jeq (ha : a.toNat < 8) : exec (.jeq a) s =
    .next (if equalSet s.fl then s.setPc (s.getReg ⟨a.toNat, ha⟩) else s.advance .jeq) := withReg_of_lt ha

theorem exec_jne (ha : a.toNat < 8) : exec (.jne a) s =
    .next (if equalSet s.fl then s.advance .jne else s.setPc (s.getReg ⟨a.toNat, ha⟩)) := withReg_of_lt ha

theorem exec_hlt : exec .hlt s = .next s.halt := rfl

theorem exec_ret : exec .ret s = .next (s.setPc s.topOfStack).incSp := rfl

theorem wf_one {i : Instr} (hi : i.regOperands = [a]) : i.wf = true ↔ a.toNat < 8 := by simp [Instr.wf, hi]

theorem wf_two {i : Instr} (hi : i.regOperands = [a, b]) : i.wf = true ↔ a.toNat < 8 ∧ b.toNat < 8 := by
  simp [Instr.wf, hi]

/-- Everything a running core's step can be: the decoded instruction, or the fault of a rejected opcode byte. -/
theorem step_running (hs : s.status = .running) :
    (∃ i, decode (fetch s).ir (fetch s).a (fetch s).b = .ok i ∧ step s = exec i s) ∨
      (∃ e, decode (fetch s).ir (fetch s).a (fetch s).b = .error e ∧
        step s = .next (s.faultEntry (causeOfDecodeError e) (fetch s).ir)) := by
  simp only [step, hs, cycle]
  cases hd : decode (fetch s).ir (fetch s).a (fetch s).b with
  | ok i => exact .inl ⟨i, rfl, rfl⟩
  | error e => exact .inr ⟨e, rfl, rfl⟩

/-- A core that is not running has no step (40_dispatch.md R80). -/
theorem step_next_running {t : State} (h : step s = .next t) : s.status = .running := by
  unfold step at h
  split at h
  · assumption
  · cases h
  · cases h

end Sys2Proof.Machine
end

