-- ==== Sys2Proof/Laws/Effect.lean ====
section
/-! SUPPORT. Everything an instruction can do, said once: `exec_effect` turns `exec i s = next t` into the list of
next states, so that a proof about all instructions is one case analysis. -/

namespace Sys2Proof.Machine

/-- The next states of an instruction: the two faults, then one case an instruction. -/
inductive Effect (s : State) : Instr → State → Prop
  | illegal {i : Instr} : i.wf = false → Effect s i (s.faultEntry .illegalRegister i.op.byte)
  | divZero {a b : Byte} {ra rb : Reg} : regIndex? a = some ra → regIndex? b = some rb → s.getReg rb = 0 →
      Effect s (.div a b) (s.faultEntry .divideByZero Opcode.div.byte)
  | hlt : Effect s .hlt s.halt
  | ldi {a imm : Byte} {ra : Reg} : regIndex? a = some ra → Effect s (.ldi a imm) ((s.setReg ra imm).advance .ldi)
  | st {a b : Byte} {ra rb : Reg} : regIndex? a = some ra → regIndex? b = some rb →
      Effect s (.st a b) ((s.memWrite (s.getReg ra) (s.getReg rb)).advance .st)
  | push {a : Byte} {ra : Reg} : regIndex? a = some ra →
      Effect s (.push a) ((s.pushByte (s.decSp.getReg ra)).advance .push)
  | pop {a : Byte} {ra : Reg} : regIndex? a = some ra →
      Effect s (.pop a) ((s.setReg ra s.topOfStack).incSp.advance .pop)
  | prn {a : Byte} {ra : Reg} : regIndex? a = some ra → Effect s (.prn a) ((s.emit (s.getReg ra)).advance .prn)
  | add {a b : Byte} {ra rb : Reg} : regIndex? a = some ra → regIndex? b = some rb →
      Effect s (.add a b) ((s.setReg ra (aluAdd (s.getReg ra) (s.getReg rb))).advance .add)
  | sub {a b : Byte} {ra rb : Reg} : regIndex? a = some ra → regIndex? b = some rb →
      Effect s (.sub a b) ((s.setReg ra (aluSub (s.getReg ra) (s.getReg rb))).advance .sub)
  | mul {a b : Byte} {ra rb : Reg} : regIndex? a = some ra → regIndex? b = some rb →
      Effect s (.mul a b) ((s.setReg ra (aluMul (s.getReg ra) (s.getReg rb))).advance .mul)
  | div {a b : Byte} {ra rb : Reg} : regIndex? a = some ra → regIndex? b = some rb → s.getReg rb ≠ 0 →
      Effect s (.div a b) ((s.setReg ra (aluDiv (s.getReg ra) (s.getReg rb))).advance .div)
  | cmp {a b : Byte} {ra rb : Reg} : regIndex? a = some ra → regIndex? b = some rb →
      Effect s (.cmp a b) ((s.setFl (compareFlags (s.getReg ra) (s.getReg rb))).advance .cmp)
  | call {a : Byte} {ra : Reg} : regIndex? a = some ra →
      Effect s (.call a) ((s.pushByte (nextAddress .call s.pc)).setPc
        ((s.pushByte (nextAddress .call s.pc)).getReg ra))
  | ret : Effect s .ret (s.setPc s.topOfStack).incSp
  | jmp {a : Byte} {ra : Reg} : regIndex? a = some ra → Effect s (.jmp a) (s.setPc (s.getReg ra))
  | jeqTaken {a : Byte} {ra : Reg} : regIndex? a = some ra → equalSet s.fl = true →
      Effect s (.jeq a) (s.setPc (s.getReg ra))
  | jeqNot {a : Byte} {ra : Reg} : regIndex? a = some ra → equalSet s.fl = false → Effect s (.jeq a) (s.advance .jeq)
  | jneTaken {a : Byte} {ra : Reg} : regIndex? a = some ra → equalSet s.fl = false →
      Effect s (.jne a) (s.setPc (s.getReg ra))
  | jneNot {a : Byte} {ra : Reg} : regIndex? a = some ra → equalSet s.fl = true → Effect s (.jne a) (s.advance .jne)

variable {a b : Byte} {s t : State} {op : Opcode} {i : Instr}

theorem effect_of_one {k : Reg → Result} (hr : i.regOperands = [a]) (ho : i.op = op)
    (hk : ∀ ra, regIndex? a = some ra → k ra = .next t → Effect s i t) (h : withReg op a s k = .next t) :
    Effect s i t := by
  obtain ⟨ha, rfl⟩ | ⟨ra, hra, h⟩ := withReg_next h
  · subst ho
    exact .illegal (by simp [Instr.wf, hr, ha])
  · exact hk ra hra h

theorem effect_of_two {k : Reg → Reg → Result} (hr : i.regOperands = [a, b]) (ho : i.op = op)
    (hk : ∀ ra rb, regIndex? a = some ra → regIndex? b = some rb → k ra rb = .next t → Effect s i t)
    (h : withRegs op a b s k = .next t) : Effect s i t := by
  obtain ⟨hab, rfl⟩ | ⟨ra, rb, hra, hrb, h⟩ := withRegs_next h
  · subst ho
    exact .illegal (by simp [Instr.wf, hr]; omega)
  · exact hk ra rb hra hrb h

/-- The inversion of `exec`: its next state is one of `Effect`'s. -/
theorem exec_effect (h : exec i s = .next t) : Effect s i t := by
  cases i with
  | hlt => cases h; exact .hlt
  | ret => cases h; exact .ret
  | ldi a imm => exact effect_of_one rfl rfl (fun _ ha h => by cases h; exact .ldi ha) h
  | push a => exact effect_of_one rfl rfl (fun _ ha h => by cases h; exact .push ha) h
  | pop a => exact effect_of_one rfl rfl (fun _ ha h => by cases h; exact .pop ha) h
  | prn a => exact effect_of_one rfl rfl (fun _ ha h => by cases h; exact .prn ha) h
  | call a => exact effect_of_one rfl rfl (fun _ ha h => by cases h; exact .call ha) h
  | jmp a => exact effect_of_one rfl rfl (fun _ ha h => by cases h; exact .jmp ha) h
  | jeq a =>
    refine effect_of_one rfl rfl (fun _ ha h => ?_) h
    cases h
    split
    next he => exact .jeqTaken ha he
    next he => exact .jeqNot ha (by simpa using he)
  | jne a =>
    refine effect_of_one rfl rfl (fun _ ha h => ?_) h
    cases h
    split
    next he => exact .jneNot ha he
    next he => exact .jneTaken ha (by simpa using he)
  | st a b => exact effect_of_two rfl rfl (fun _ _ ha hb h => by cases h; exact .st ha hb) h
  | add a b => exact effect_of_two rfl rfl (fun _ _ ha hb h => by cases h; exact .add ha hb) h
  | sub a b => exact effect_of_two rfl rfl (fun _ _ ha hb h => by cases h; exact .sub ha hb) h
  | mul a b => exact effect_of_two rfl rfl (fun _ _ ha hb h => by cases h; exact .mul ha hb) h
  | cmp a b => exact effect_of_two rfl rfl (fun _ _ ha hb h => by cases h; exact .cmp ha hb) h
  | div a b =>
    refine effect_of_two rfl rfl (fun _ _ ha hb h => ?_) h
    split at h
    · cases h
      exact .divZero ha hb ‹_›
    · cases h
      exact .div ha hb ‹_›

end Sys2Proof.Machine
end

