-- ==== Sys2Proof/Laws/PerInstr.lean ====
section
/-! SUPPORT. Families of lemmas with one lemma per constructor of Instr (LAWS.json). -/

/-! `EncodingLayout`: the opcode byte of an instruction carries its operand count and its class (spec/30_encoding.md
R60-R62, R65), and the encoder writes exactly that many operand bytes. -/

namespace Sys2Proof.Laws.EncodingLayout

def Statement (i : Instr) : Prop :=
  operandCount i.op.byte = i.operandBytes.length ∧ i.operandBytes.length = i.op.row.format.operands ∧
    classOf i.op.byte = some i.op.row.cls ∧ i.regOperands.length ≤ i.operandBytes.length

theorem hlt : Statement .hlt := by unfold Statement; decide
theorem ldi (a imm : Byte) : Statement (.ldi a imm) := ⟨Opcode.operandCount_byte _, rfl, Opcode.classOf_byte _, Nat.le_succ 1⟩
theorem st (a b : Byte) : Statement (.st a b) := ⟨Opcode.operandCount_byte _, rfl, Opcode.classOf_byte _, Nat.le_refl 2⟩
theorem push (a : Byte) : Statement (.push a) := ⟨Opcode.operandCount_byte _, rfl, Opcode.classOf_byte _, Nat.le_refl 1⟩
theorem pop (a : Byte) : Statement (.pop a) := ⟨Opcode.operandCount_byte _, rfl, Opcode.classOf_byte _, Nat.le_refl 1⟩
theorem prn (a : Byte) : Statement (.prn a) := ⟨Opcode.operandCount_byte _, rfl, Opcode.classOf_byte _, Nat.le_refl 1⟩
theorem add (a b : Byte) : Statement (.add a b) := ⟨Opcode.operandCount_byte _, rfl, Opcode.classOf_byte _, Nat.le_refl 2⟩
theorem sub (a b : Byte) : Statement (.sub a b) := ⟨Opcode.operandCount_byte _, rfl, Opcode.classOf_byte _, Nat.le_refl 2⟩
theorem mul (a b : Byte) : Statement (.mul a b) := ⟨Opcode.operandCount_byte _, rfl, Opcode.classOf_byte _, Nat.le_refl 2⟩
theorem div (a b : Byte) : Statement (.div a b) := ⟨Opcode.operandCount_byte _, rfl, Opcode.classOf_byte _, Nat.le_refl 2⟩
theorem cmp (a b : Byte) : Statement (.cmp a b) := ⟨Opcode.operandCount_byte _, rfl, Opcode.classOf_byte _, Nat.le_refl 2⟩
theorem call (a : Byte) : Statement (.call a) := ⟨Opcode.operandCount_byte _, rfl, Opcode.classOf_byte _, Nat.le_refl 1⟩
theorem ret : Statement .ret := by unfold Statement; decide
theorem jmp (a : Byte) : Statement (.jmp a) := ⟨Opcode.operandCount_byte _, rfl, Opcode.classOf_byte _, Nat.le_refl 1⟩
theorem jeq (a : Byte) : Statement (.jeq a) := ⟨Opcode.operandCount_byte _, rfl, Opcode.classOf_byte _, Nat.le_refl 1⟩
theorem jne (a : Byte) : Statement (.jne a) := ⟨Opcode.operandCount_byte _, rfl, Opcode.classOf_byte _, Nat.le_refl 1⟩

end Sys2Proof.Laws.EncodingLayout
end

