-- ==== Sys2Proof/Laws/Ports.lean ====
section
/-! SUPPORT. The small laws of the memory port: what each field of an access is, and that fetching writes nothing. -/

namespace Sys2Proof.Machine

variable (s : State) (m : Memory) (a v : Byte)

@[simp] theorem Access.read_addr : (Access.read a v).addr = a := rfl
@[simp] theorem Access.read_we : (Access.read a v).we = false := rfl
@[simp] theorem Access.read_rdata? : (Access.read a v).rdata? = some v := rfl
@[simp] theorem Access.read_wdata? : (Access.read a v).wdata? = none := rfl
@[simp] theorem Access.read_applyTo : (Access.read a v).applyTo m = m := rfl
@[simp] theorem Access.write_addr : (Access.write a v).addr = a := rfl
@[simp] theorem Access.write_we : (Access.write a v).we = true := rfl
@[simp] theorem Access.write_rdata? : (Access.write a v).rdata? = none := rfl
@[simp] theorem Access.write_wdata? : (Access.write a v).wdata? = some v := rfl
@[simp] theorem Access.write_applyTo : (Access.write a v).applyTo m = Memory.write m a v := rfl

@[simp] theorem readAccess_addr : (readAccess s a).addr = a := rfl
@[simp] theorem readAccess_we : (readAccess s a).we = false := rfl
@[simp] theorem readAccess_rdata? : (readAccess s a).rdata? = some (s.memRead a) := rfl
@[simp] theorem readAccess_applyTo : (readAccess s a).applyTo m = m := rfl

/-- Everything a fetch does on the port: reads at `pc`, `pc + 1` or `pc + 2`. -/
theorem fetchAccesses_mem {acc : Access} (h : acc ∈ fetchAccesses s) :
    acc = readAccess s s.pc ∨ acc = readAccess s (s.pc + 1) ∨ acc = readAccess s (s.pc + 2) := by
  simp only [fetchAccesses, List.mem_cons, List.mem_append, List.mem_ite_nil_right, List.not_mem_nil, or_false] at h
  rcases h with h | ⟨-, h⟩ | ⟨-, h⟩
  · exact .inl h
  · exact .inr (.inl h)
  · exact .inr (.inr h)

end Sys2Proof.Machine
end

