-- ==== Sys2Proof/Machine/Assembly.lean ====
section
/-! DEFINITION. The assembler spelling of an instruction (spec/30_encoding.md R73, decision D19, log 26). "The hardware
never sees this text": `step` does not use this file. -/

namespace Sys2Proof.Machine

/-- The mnemonic of 30_encoding.md R68; every mnemonic is one machine instruction (R74). -/
def mnemonic : Opcode → String
  | .hlt => "HLT"
  | .ldi => "LDI"
  | .st => "ST"
  | .push => "PUSH"
  | .pop => "POP"
  | .prn => "PRN"
  | .add => "ADD"
  | .sub => "SUB"
  | .mul => "MUL"
  | .div => "DIV"
  | .cmp => "CMP"
  | .call => "CALL"
  | .ret => "RET"
  | .jmp => "JMP"
  | .jeq => "JEQ"
  | .jne => "JNE"

/-- A register as `R` and its number. -/
def regText (a : Byte) : String := "R" ++ toString a.toNat

/-- The operands of each format, separated by a comma; an immediate is decimal. -/
def operandText (f : Format) (ops : List Byte) : String :=
  match f, ops with
  | .r, [a] => " " ++ regText a
  | .rr, [a, b] => " " ++ regText a ++ ", " ++ regText b
  | .ri, [a, imm] => " " ++ regText a ++ ", " ++ toString imm.toNat
  | _, _ => ""

/-- One line of assembler text. -/
def assemblyText (i : Instr) : String := mnemonic i.op ++ operandText i.op.row.format i.operandBytes

end Sys2Proof.Machine
end

