-- ==== Sys2Proof/Tests/Slice0.lean ====
section
/-! SUPPORT. Tests. Expected results are the vectors of spec/95_test_vectors.md (named in each comment) or are written
out by hand from the encoding of spec/30_encoding.md. The `witness_` theorems show that the hypotheses of a statement of
Obligations.lean are met together, one for each clause where a statement has several. -/

namespace Sys2Proof.Tests

open Sys2Proof.Machine Sys2Proof.Claims

/-! ## Helpers -/

/-- Some registers set. -/
def setRegs (s : State) : List (Reg × Byte) → State
  | [] => s
  | w :: ws => setRegs (s.setReg w.1 w.2) ws

/-- The reset state with some registers, the program counter and the bytes at it set. -/
def bootAt (pc : Byte) (bytes : List Byte) (regs : List (Reg × Byte)) : State :=
  State.storeBytes ((setRegs State.reset regs).setPc pc) pc bytes

/-- The state one step gives, if it gives one. -/
def stepped (s : State) : Option State :=
  match step s with
  | .next t => some t
  | _ => none

/-! ## WellFormed: an ill-formed term for each check -/

theorem test_wf_ldi : (Instr.ldi 8 0).wf = false ∧ (Instr.ldi 7 255).wf = true := by decide
theorem test_wf_st : (Instr.st 8 0).wf = false ∧ (Instr.st 0 8).wf = false := by decide
theorem test_wf_push : (Instr.push 255).wf = false := by decide
theorem test_wf_pop : (Instr.pop 8).wf = false := by decide
theorem test_wf_prn : (Instr.prn 12).wf = false := by decide
theorem test_wf_add : (Instr.add 8 0).wf = false ∧ (Instr.add 0 8).wf = false := by decide
theorem test_wf_sub : (Instr.sub 8 0).wf = false ∧ (Instr.sub 0 8).wf = false := by decide
theorem test_wf_mul : (Instr.mul 8 0).wf = false ∧ (Instr.mul 0 8).wf = false := by decide
theorem test_wf_div : (Instr.div 8 0).wf = false ∧ (Instr.div 0 9).wf = false := by decide
theorem test_wf_cmp : (Instr.cmp 8 0).wf = false ∧ (Instr.cmp 0 8).wf = false := by decide
theorem test_wf_call : (Instr.call 8).wf = false := by decide
theorem test_wf_jmp : (Instr.jmp 8).wf = false := by decide
theorem test_wf_jeq : (Instr.jeq 8).wf = false := by decide
theorem test_wf_jne : (Instr.jne 8).wf = false := by decide

/-! ## Decode: a word of every constructor, written out from 30_encoding.md R65 and R68 -/

theorem test_decode_hlt : decodeBytes [0b00000001] = .ok (.hlt, []) := by decide
theorem test_decode_ldi : decodeBytes [0b10000010, 0b00000011, 0b10000001] = .ok (.ldi 3 129, []) := by decide
theorem test_decode_st : decodeBytes [0b10000100, 0b00000010, 0b00000101] = .ok (.st 2 5, []) := by decide
theorem test_decode_push : decodeBytes [0b01000101, 0b00000111] = .ok (.push 7, []) := by decide
theorem test_decode_pop : decodeBytes [0b01000110, 0b00000001] = .ok (.pop 1, []) := by decide
theorem test_decode_prn : decodeBytes [0b01000111, 0b00000110] = .ok (.prn 6, []) := by decide
theorem test_decode_add : decodeBytes [0b10100000, 0b00000001, 0b00000010] = .ok (.add 1 2, []) := by decide
theorem test_decode_sub : decodeBytes [0b10100001, 0b00000001, 0b00000010] = .ok (.sub 1 2, []) := by decide
theorem test_decode_mul : decodeBytes [0b10100010, 0b00000001, 0b00000010] = .ok (.mul 1 2, []) := by decide
theorem test_decode_div : decodeBytes [0b10100011, 0b00000001, 0b00000010] = .ok (.div 1 2, []) := by decide
theorem test_decode_cmp : decodeBytes [0b10100111, 0b00000001, 0b00000010] = .ok (.cmp 1 2, []) := by decide
theorem test_decode_call : decodeBytes [0b01010000, 0b00000100] = .ok (.call 4, []) := by decide
theorem test_decode_ret : decodeBytes [0b00010001, 0b11111111] = .ok (.ret, [0b11111111]) := by decide
theorem test_decode_jmp : decodeBytes [0b01010100, 0b00000010] = .ok (.jmp 2, []) := by decide
theorem test_decode_jeq : decodeBytes [0b01010101, 0b00000011] = .ok (.jeq 3, []) := by decide
theorem test_decode_jne : decodeBytes [0b01010110, 0b00000011] = .ok (.jne 3, []) := by decide

/-- Vectors D6-D14: bytes that decode to nothing. -/
theorem test_decode_rejects :
    [(0x00 : Byte), 0x02, 0x12, 0xA4, 0xA8, 0xB0, 0xFF, 0xC2, 0x81].map (fun ir => decode ir 0 0) =
      [.error .unknownOpcode, .error .unknownOpcode, .error .unknownOpcode, .error .unknownOpcode,
        .error .unknownOpcode, .error .unknownClass, .error .unknownClass, .error .unknownOpcode,
        .error .unknownOpcode] := by decide

theorem test_decode_truncated : decodeBytes [0x82, 0x00] = .error .truncated := by decide

/-- The table's numbering: the second byte is bits 15..8; bits above `nbits` are 0. -/
theorem test_table_word :
    decodeTableWord 24 0x050384 = some (.st 3 5) ∧ decodeTableWord 8 0x050384 = some (.st 0 0) ∧
      decodeTableWord 8 0x00 = none := by decide

/-- The host's word placement: the next step runs the word (41_generic.md R100: `pc` 3 further). -/
theorem test_withFetchWord :
    (stepped (State.reset.withFetchWord 24 0x080082)).map (fun t => (t.getReg 0, t.pc)) = some (8, 3) := by decide

/-! ## One step of every instruction (95_test_vectors.md section 2) -/

/-- G18. -/
theorem test_hlt : (stepped (bootAt 0x0B [0x01] [])).map (fun t => (t.status, t.pc)) = some (.halted, 0x0B) := by decide

/-- G4: the operand bytes are read at FF and 00. -/
theorem test_ldi_wraps :
    (stepped (bootAt 0xFE [0x82, 0x00, 0xFF] [])).map (fun t => (t.getReg 0, t.pc)) = some (0xFF, 0x01) := by decide

/-- G2: the stack pointer is R7. -/
theorem test_ldi_sp : (stepped (bootAt 0 [0x82, 0x07, 0x10] [])).map (fun t => t.sp) = some 0x10 := by decide

/-- G5. -/
theorem test_st :
    (stepped (bootAt 0 [0x84, 0x00, 0x01] [(0, 0x20), (1, 0x55)])).map (fun t => (t.memRead 0x20, t.pc)) =
      some (0x55, 0x03) := by decide

/-- G9: R7 is read after the decrement. -/
theorem test_push_sp :
    (stepped (bootAt 0 [0x45, 0x07] [])).map (fun t => (t.sp, t.memRead 0xF3)) = some (0xF3, 0xF3) := by decide

/-- G11: the stack pointer wraps. -/
theorem test_push_wraps :
    (stepped (bootAt 0 [0x45, 0x00] [(0, 0x99), (7, 0x00)])).map (fun t => (t.sp, t.memRead 0xFF)) =
      some (0xFF, 0x99) := by decide

/-- G10: the popped byte plus one. -/
theorem test_pop_sp :
    (stepped ((bootAt 0 [0x46, 0x07] [(7, 0xF3)]).memWrite 0xF3 0x10)).map (fun t => (t.sp, t.pc)) =
      some (0x11, 0x02) := by decide

/-- G12. -/
theorem test_pop_wraps :
    (stepped ((bootAt 0 [0x46, 0x00] [(7, 0xFF)]).memWrite 0xFF 0x42)).map (fun t => (t.getReg 0, t.sp)) =
      some (0x42, 0x00) := by decide

/-- G14, with its text. -/
theorem test_prn :
    (stepped (bootAt 0 [0x47, 0x00] [(0, 0x48)])).map (fun t => (t.out, renderOutput t.out)) =
      some ([0x48], ['7', '2', '\n']) := by decide

/-- G17. -/
theorem test_prn_illegal :
    (stepped (bootAt 0 [0x47, 0x0C] [])).map (fun t => (t.fault, t.out)) =
      some (some ⟨.illegalRegister, 0x00, 0x47⟩, []) := by decide

/-- A1. -/
theorem test_add_wraps :
    (stepped (bootAt 0 [0xA0, 0x00, 0x01] [(0, 0xFA), (1, 0x0A)])).map (fun t => (t.getReg 0, t.pc)) =
      some (0x04, 0x03) := by decide

/-- A6. -/
theorem test_sub_wraps :
    (stepped (bootAt 0 [0xA1, 0x00, 0x01] [(0, 0x03), (1, 0x05)])).map (fun t => t.getReg 0) = some 0xFE := by decide

/-- A11. -/
theorem test_mul_low_byte :
    (stepped (bootAt 0 [0xA2, 0x00, 0x01] [(0, 0xC8), (1, 0x02)])).map (fun t => t.getReg 0) = some 0x90 := by decide

/-- A15. -/
theorem test_div_truncates :
    (stepped (bootAt 0 [0xA3, 0x00, 0x01] [(0, 0x07), (1, 0x02)])).map (fun t => t.getReg 0) = some 0x03 := by decide

/-- A17 and A17c: the register check comes before the divisor. -/
theorem test_div_faults :
    (stepped (bootAt 0 [0xA3, 0x00, 0x01] [(0, 0x05)])).map (fun t => (t.fault, t.getReg 0, t.pc)) =
        some (some ⟨.divideByZero, 0x00, 0xA3⟩, 0x05, 0x00) ∧
      (stepped (bootAt 0 [0xA3, 0x00, 0x09] [(0, 0x05)])).map (fun t => t.fault) =
        some (some ⟨.illegalRegister, 0x00, 0xA3⟩) := by decide

/-- A21 and A22: the comparison is unsigned. -/
theorem test_cmp_unsigned :
    (stepped (bootAt 0 [0xA7, 0x00, 0x01] [(0, 0x00), (1, 0xFF)])).map (fun t => t.fl) = some 0x04 ∧
      (stepped (bootAt 0 [0xA7, 0x00, 0x01] [(0, 0x80), (1, 0x7F)])).map (fun t => t.fl) = some 0x02 := by decide

/-- A20. -/
theorem test_cmp_equal :
    (stepped (bootAt 0 [0xA7, 0x00, 0x01] [(0, 0x07), (1, 0x07)])).map (fun t => t.fl) = some 0x01 := by decide

/-- C2: the return address wraps. -/
theorem test_call_wraps :
    (stepped (bootAt 0xFE [0x50, 0x01] [(1, 0x40)])).map (fun t => (t.sp, t.memRead 0xF3, t.pc)) =
      some (0xF3, 0x00, 0x40) := by decide

/-- C3: the target is read after the push. -/
theorem test_call_sp :
    (stepped (bootAt 0x10 [0x50, 0x07] [])).map (fun t => (t.memRead 0xF3, t.pc)) = some (0x12, 0xF3) := by decide

/-- C4b. -/
theorem test_ret_wraps :
    (stepped ((bootAt 0x0A [0x11] [(7, 0xFF)]).memWrite 0xFF 0x20)).map (fun t => (t.pc, t.sp)) =
      some (0x20, 0x00) := by decide

/-- C5. -/
theorem test_jmp : (stepped (bootAt 0 [0x54, 0x02] [(2, 0x40)])).map (fun t => t.pc) = some 0x40 := by decide

/-- C6 and C7. -/
theorem test_jeq :
    (stepped ((bootAt 0x10 [0x55, 0x03] [(3, 0x20)]).setFl 0x01)).map (fun t => t.pc) = some 0x20 ∧
      (stepped ((bootAt 0x10 [0x55, 0x03] [(3, 0x20)]).setFl 0x04)).map (fun t => t.pc) = some 0x12 := by decide

/-- C13: the register is checked though the branch is not taken. -/
theorem test_jeq_illegal :
    (stepped ((bootAt 0x10 [0x55, 0x08] []).setFl 0x04)).map (fun t => (t.fault, t.pc)) =
      some (some ⟨.illegalRegister, 0x10, 0x55⟩, 0x10) := by decide

/-- C10 and C11. -/
theorem test_jne :
    (stepped ((bootAt 0x14 [0x56, 0x03] [(3, 0x0C)]).setFl 0x01)).map (fun t => t.pc) = some 0x16 ∧
      (stepped (bootAt 0x14 [0x56, 0x03] [(3, 0x0C)])).map (fun t => t.pc) = some 0x0C := by decide

/-- C14, and the empty memory of reset: 0x00 is illegal (30_encoding.md R69). -/
theorem test_unknown_opcode :
    (stepped (bootAt 0 [0x13] [])).map (fun t => t.fault) = some (some ⟨.unknownOpcode, 0x00, 0x13⟩) ∧
      (stepped State.reset).map (fun t => t.fault) = some (some ⟨.unknownOpcode, 0x00, 0x00⟩) := by decide

/-- D11. -/
theorem test_unknown_class :
    (stepped (bootAt 0 [0xB0] [])).map (fun t => (t.fault, faultCausePort t)) =
      some (some ⟨.unknownClass, 0x00, 0xB0⟩, 1) := by decide

/-- 20_memory.md R44, the row of CALL: two fetch reads with the byte each brings in, then the write of the
return address. -/
theorem test_bus_call :
    busTrace (bootAt 0x03 [0x50, 0x01] [(1, 0x08)]) = [.read 0x03 0x50, .read 0x04 0x01, .write 0xF3 0x05] := by decide

/-- 20_memory.md R44, the row of RET: the fetch read, then the read of the byte at the stack pointer. -/
theorem test_bus_ret :
    (busTrace ((bootAt 0x0A [0x11] []).memWrite 0xF4 0x05)).map (fun acc => (acc.addr, acc.rdata?)) =
      [(0x0A, some 0x11), (0xF4, some 0x05)] := by decide

/-- 30_encoding.md R73: one form of each format. -/
theorem test_assembly :
    assemblyText .ret = "RET" ∧ assemblyText (.push 7) = "PUSH R7" ∧ assemblyText (.st 0 1) = "ST R0, R1" ∧
      assemblyText (.ldi 0 8) = "LDI R0, 8" := by decide

/-- 10_state.md R30. -/
theorem test_flag_ordering :
    [(0x00 : Byte), 0x01, 0x02, 0x04].map flagOrdering = [none, some .eq, some .gt, some .lt] := by decide

/-! ## Witnesses: encoding, fetch and step -/

theorem witness_DecodedBytesAreTheEncoding : decodeBytes [0x45, 0x07, 0xAA] = .ok (.push 7, [0xAA]) := by decide
theorem witness_OpcodeByteGivesLength :
    decode 0x11 0 0 = .ok .ret ∧ decodeBytes [0x82, 0xFF, 0x00, 0x01] = .ok (.ldi 255 0, [0x01]) := by decide
theorem witness_UnknownBytesRejectedByClass :
    (0x30 : Byte) ∉ knownBytes ∧ (0x2F : Byte) ∉ knownBytes ∧ (0xFF : Byte) ∉ knownBytes ∧
      (0x01 : Byte) ∈ knownBytes ∧ (0xA7 : Byte) ∈ knownBytes := by decide

/-- Counts 0, 1, 2 and 3, the third straddling the wrap. -/
theorem witness_FetchReadsCountedOperands :
    ((bootAt 0 [0x3F] []).memRead 0).toNat / 64 = 0 ∧ ((bootAt 0 [0x40] []).memRead 0).toNat / 64 = 1 ∧
      ((bootAt 0xFF [0x80] []).memRead 0xFF).toNat / 64 = 2 ∧ ((bootAt 0 [0xC0] []).memRead 0).toNat / 64 = 3 := by decide

theorem witness_StepRunsDecodedInstruction :
    (bootAt 0xFF [0xA0, 0x07, 0x00] []).status = .running ∧
      ∀ k (h : k < (encode (.add 7 0)).length),
        (bootAt 0xFF [0xA0, 0x07, 0x00] []).memRead ((bootAt 0xFF [0xA0, 0x07, 0x00] []).pc + BitVec.ofNat 8 k) =
          (encode (.add 7 0))[k] := by decide

theorem witness_PlacedTableWordRunsNext :
    State.reset.status = .running ∧ decodeTableWord 16 0x0745 = some (.push 7) := by decide

theorem witness_OnlyRunningCoreSteps :
    State.reset.status = .running ∧ State.reset.halt.status = .halted ∧
      (State.reset.faultEntry .unknownOpcode 0).status = .faulted := by decide

theorem witness_StepReportsFirstCondition_halt :
    (bootAt 0 [0x01] []).status = .running ∧ (bootAt 0 [0x01] []).memRead 0 = 0x01 := by decide
theorem witness_StepReportsFirstCondition_class :
    (0x30 : Byte) ≠ 0x01 ∧ (0x30 : Byte).toNat / 16 % 4 = 3 ∧ (bootAt 0 [0x30] []).memRead 0 = 0x30 := by decide
theorem witness_StepReportsFirstCondition_opcode :
    (0x2F : Byte).toNat / 16 % 4 ≠ 3 ∧ (0x2F : Byte) ∉ knownBytes ∧ (bootAt 0 [0x2F] []).memRead 0 = 0x2F := by decide
theorem witness_StepReportsFirstCondition_register :
    (0x56 : Byte) ∈ oneRegisterBytes ∧ 8 ≤ (8 : Byte).toNat ∧ (bootAt 0 [0x56, 0x08] []).memRead 1 = 8 ∧
      (0xA7 : Byte) ∈ twoRegisterBytes ∧ (bootAt 0 [0xA7, 0x07, 0x08] []).memRead 2 = 8 := by decide
theorem witness_StepReportsFirstCondition_divisor :
    (7 : Byte).toNat < 8 ∧ (bootAt 0 [0xA3, 0x07, 0x00] []).memRead 0 = 0xA3 ∧
      (bootAt 0 [0xA3, 0x07, 0x00] []).getReg (reg 0 (by decide)) = 0 := by decide
theorem witness_StepReportsFirstCondition_completes :
    (0xA3 : Byte) ∈ knownBytes ∧ (0xA3 : Byte) ≠ 0x01 ∧ (7 : Byte).toNat < 8 ∧
      ∀ r : Reg, r.val = (7 : Byte).toNat → (bootAt 0 [0xA3, 0x07, 0x07] []).getReg r ≠ 0 := by decide

/-! ## Witnesses: faults and invariants -/

theorem witness_FaultingStepWritesOnlyItsRecord :
    (stepped State.reset).map (fun t => t.status) = some .faulted := by decide
theorem witness_IllegalRegisterOperandRaises : ∃ r ∈ (Instr.jne 8).regOperands, 8 ≤ r.toNat := by decide
theorem witness_DivideByZeroRaises :
    (0 : Byte).toNat < 8 ∧ (6 : Byte).toNat < 8 ∧ State.reset.getReg (reg 6 (by decide)) = 0 := by decide
theorem witness_FaultOutputsShowTheRecord :
    State.reset.fault = none ∧ (State.reset.faultEntry .illegalRegister 0x45).fault = some ⟨.illegalRegister, 0, 0x45⟩ ∧
      (State.reset.faultEntry .divideByZero 0xA3).fault = some ⟨.divideByZero, 0, 0xA3⟩ ∧
      (State.reset.faultEntry .unknownOpcode 0).fault = some ⟨.unknownOpcode, 0, 0⟩ ∧
      (State.reset.faultEntry .unknownClass 0x30).fault = some ⟨.unknownClass, 0, 0x30⟩ := by decide

/-- A state other than reset that meets the invariant, and has a step. -/
theorem witness_StepKeepsMachineInvariant :
    (bootAt 0 [0x45, 0x07] [(0, 5)]).Inv ∧ (stepped (bootAt 0 [0x45, 0x07] [(0, 5)])).isSome = true :=
  ⟨⟨by decide, .inl rfl, trivial⟩, by decide⟩

/-- A halted state that meets the invariant, on its halt instruction. -/
theorem witness_StopExplained_halted : (bootAt 0 [0x01] []).halt.Inv :=
  ⟨by decide, .inl rfl, by show State.memRead _ _ = _; decide⟩

theorem witness_EveryBootedRunKeepsInvariant :
    boot [0x01] = some (bootAt 0 [0x01] []) ∧ Reaches (bootAt 0 [0x01] []) (bootAt 0 [0x01] []) := ⟨by decide, .refl _⟩
theorem witness_CanonicalMemoryDeterminedByReads :
    Memory.wf [(3, 7), (255, 1)] ∧ ∀ a, Memory.read [(3, 7), (255, 1)] a = Memory.read [(3, 7), (255, 1)] a :=
  ⟨by decide, fun _ => rfl⟩

/-! ## Witnesses: whole-machine rules -/

theorem witness_OnlyCompareWritesFlags :
    exec .hlt State.reset = .next State.reset.halt ∧ ∀ a b, Instr.hlt ≠ .cmp a b :=
  ⟨rfl, fun _ _ h => by cases h⟩
theorem witness_FlagsReadOnlyThroughEqualBit :
    (∃ t, exec (.jeq 7) (State.reset.setFl flagG) = .next t) ∧ flagL.getLsbD 0 = flagG.getLsbD 0 ∧
      ((∀ a, Instr.ret ≠ .jeq a) ∧ ∀ a, Instr.ret ≠ .jne a) :=
  ⟨⟨_, exec_jeq (by decide)⟩, by decide, fun _ h => (by cases h), fun _ h => (by cases h)⟩
theorem witness_OutputIsAppendedByPrintAlone :
    (stepped (bootAt 0 [0x47, 0x07] [])).isSome = true ∧
      decode (fetch (bootAt 0 [0x47, 0x07] [])).ir (fetch (bootAt 0 [0x47, 0x07] [])).a (fetch (bootAt 0 [0x47, 0x07] [])).b =
        .ok (.prn 7) ∧ regIndex? 7 = some 7 ∧ regIndex? 8 = none ∧
      (stepped (bootAt 0 [0x47, 0x08] [])).isSome = true := by decide
theorem witness_PortsAccountForMemoryAndOutput :
    (stepped (bootAt 0 [0x45, 0x07] [])).isSome = true ∧ Access.write 0xF3 0xF3 ∈ busTrace (bootAt 0 [0x45, 0x07] []) := by
  decide
theorem witness_MemoryIsSeenOnlyThroughReadData :
    (stepped (bootAt 0 [0x46, 0x00] [])).isSome = true ∧
      (∀ acc ∈ busTrace (bootAt 0 [0x46, 0x00] []), ∀ d, acc.rdata? = some d →
        Memory.read [(0, 0x46), (9, 0x07)] acc.addr = d) ∧
      (bootAt 0 [0x46, 0x00] []).mem ≠ [(0, 0x46), (9, 0x07)] := by decide
theorem witness_RegistersWrittenAreListed :
    exec (.push 0) State.reset = .next ((State.reset.pushByte (State.reset.decSp.getReg 0)).advance .push) ∧
      ¬ mayWrite (.push 0) 0 := ⟨exec_push (by decide), by show ¬ (0 : Reg) = 7; decide⟩
theorem witness_RoutedSequentialInstructionAdvancesPc :
    ((Instr.prn 7).op.row.cls = .generic ∧ Instr.prn 7 ≠ .hlt ∧ State.reset.status = .running ∧
        ∃ t, exec (.prn 7) State.reset = .next t ∧ t.status ≠ .faulted) ∧
      ((Instr.div 0 7).op.row.cls = .alu ∧ ∃ t, exec (.div 0 7) State.reset = .next t ∧ t.status ≠ .faulted) :=
  ⟨⟨rfl, by decide, rfl, _, exec_prn (by decide), by decide⟩,
    ⟨rfl, _, exec_div (by decide) (by decide) (by decide), by decide⟩⟩
theorem witness_StoreIsSeenByNextFetch : (0 : Byte).toNat < 8 ∧ (7 : Byte).toNat < 8 := by decide
theorem witness_SelfJumpRunsForever :
    (bootAt 6 [0x54, 0x02] [(2, 6)]).status = .running ∧
      decode (fetch (bootAt 6 [0x54, 0x02] [(2, 6)])).ir (fetch (bootAt 6 [0x54, 0x02] [(2, 6)])).a
        (fetch (bootAt 6 [0x54, 0x02] [(2, 6)])).b = .ok (.jmp 2) ∧
      (bootAt 6 [0x54, 0x02] [(2, 6)]).getReg (reg 2 (by decide)) = (bootAt 6 [0x54, 0x02] [(2, 6)]).pc := by decide
theorem witness_StoppedCoreKeepsItsState :
    (State.reset.faultEntry .unknownOpcode 0).status ≠ .running ∧
      Reaches (State.reset.faultEntry .unknownOpcode 0) (State.reset.faultEntry .unknownOpcode 0) :=
  ⟨by decide, .refl _⟩
theorem witness_HaltedRunIsSafeAndUnique :
    HaltsIn (bootAt 0 [0x01] []) (bootAt 0 [0x01] []).halt ∧ Reaches (bootAt 0 [0x01] []) (bootAt 0 [0x01] []) :=
  ⟨⟨.step (.refl _) (by rfl), rfl⟩, .refl _⟩
theorem witness_PushThenPopRestoresRegisters : (7 : Byte).toNat < 8 ∧ (0 : Byte).toNat < 8 := by decide

/-- A state after a call with the same stack pointer and byte: the called state itself. -/
theorem witness_ReturnResumesAfterItsCall :
    (1 : Byte).toNat < 8 ∧ (7 : Byte).toNat < 8 ∧ ∃ t u, exec (.call 1) State.reset = .next t ∧ u.sp = t.sp ∧
      u.memRead t.sp = t.memRead t.sp ∧ ∃ w, exec (.call 7) u = .next w ∧ w.memRead t.sp = t.memRead t.sp :=
  ⟨by decide, by decide, _, _, exec_call (by decide), rfl, rfl, _, exec_call (by decide), by decide⟩
theorem witness_CompareThenJumpBranchesOnEquality :
    (0 : Byte).toNat < 8 ∧ (7 : Byte).toNat < 8 ∧ (5 : Byte).toNat < 8 ∧
      (State.reset.setFl flagL).fl = flagL := by decide

/-! ## Witnesses: load and per-instruction statements -/

theorem witness_LoadedMemoryIsImageThenZeros : (boot [0x45, 0x07]).isSome = true := by decide
theorem witness_LoadTouchesMemoryAlone :
    (List.replicate 256 (1 : Byte)).length ≤ 256 ∧ 256 < (List.replicate 257 (1 : Byte)).length := by
  simp only [List.length_replicate]; decide
theorem witness_FirstPushWritesBelowResetStack :
    (7 : Byte).toNat < 8 ∧ (0 : Byte).toNat < 8 ∧ (bootAt 5 [0x45, 0x00] [(0, 9)]).sp = State.reset.sp := by decide
theorem witness_LoadImmediateSetsRegister : (7 : Byte).toNat < 8 := by decide
theorem witness_StoreWritesAddressedByte : (7 : Byte).toNat < 8 ∧ (0 : Byte).toNat < 8 := by decide
theorem witness_PushStoresBelowStackPointer : (7 : Byte).toNat < 8 := by decide
theorem witness_PopLoadsFromStackPointer :
    (7 : Byte).toNat < 8 ∧ reg 7 (by decide) = 7 ∧ (6 : Byte).toNat < 8 ∧ reg 6 (by decide) ≠ 7 := by decide
theorem witness_PrintAppendsRegister : (7 : Byte).toNat < 8 := by decide
theorem witness_AddWrapsModulo256 : (7 : Byte).toNat < 8 ∧ (0 : Byte).toNat < 8 := by decide
theorem witness_SubtractWrapsModulo256 : (7 : Byte).toNat < 8 ∧ (0 : Byte).toNat < 8 := by decide
theorem witness_MultiplyKeepsLowByte : (7 : Byte).toNat < 8 ∧ (0 : Byte).toNat < 8 := by decide
theorem witness_DivideTruncates :
    (0 : Byte).toNat < 8 ∧ (7 : Byte).toNat < 8 ∧ State.reset.getReg (reg 7 (by decide)) ≠ 0 := by decide

/-- Each of the three clauses, at neighbouring values. -/
theorem witness_CompareSetsExactlyOneFlag :
    (State.reset.getReg (reg 0 (by decide))).toNat < (State.reset.getReg (reg 7 (by decide))).toNat ∧
      (State.reset.getReg (reg 7 (by decide))).toNat > (State.reset.getReg (reg 0 (by decide))).toNat ∧
      (State.reset.getReg (reg 0 (by decide))).toNat = (State.reset.getReg (reg 1 (by decide))).toNat := by decide
theorem witness_CallPushesReturnAddress : (7 : Byte).toNat < 8 ∧ (0 : Byte).toNat < 8 := by decide
theorem witness_JumpSetsProgramCounter : (7 : Byte).toNat < 8 := by decide
theorem witness_JumpIfEqualTestsEqualBit : (7 : Byte).toNat < 8 := by decide
theorem witness_JumpIfNotEqualTestsEqualBit : (7 : Byte).toNat < 8 := by decide

end Sys2Proof.Tests
end

section
/-! SUPPORT. A step read through its decoded instruction, and what a step does to the output (spec/10_state.md R33). -/

namespace Sys2Proof.Machine

variable {a : Byte} {r : Reg} {s t : State} {i : Instr}

/-- The inversion of `step`: the effect of the instruction the fetched bytes decode to, or the fault entry of a
rejected opcode byte. -/
theorem step_effect (h : step s = .next t) :
    (∃ i, decode (fetch s).ir (fetch s).a (fetch s).b = .ok i ∧ Effect s i t) ∨
      (∃ e, decode (fetch s).ir (fetch s).a (fetch s).b = .error e ∧
        t = s.faultEntry (causeOfDecodeError e) (fetch s).ir) := by
  obtain ⟨i, hi, hs⟩ | ⟨e, he, hs⟩ := step_running (step_next_running h)
  · exact .inl ⟨i, hi, exec_effect (hs.symm.trans h)⟩
  · exact .inr ⟨e, he, Host.Outcome.next.inj (h.symm.trans hs)⟩

/-- A step whose bytes decode has the effect of that instruction. -/
theorem step_effect_of_decode (h : step s = .next t) (hi : decode (fetch s).ir (fetch s).a (fetch s).b = .ok i) :
    Effect s i t := by
  obtain ⟨j, hj, heff⟩ | ⟨e, he, -⟩ := step_effect h
  · cases hi.symm.trans hj
    exact heff
  · cases hi.symm.trans he

/-- A print of a readable register appends its value (41_generic.md R104). -/
theorem Effect.out_of_print (h : Effect s (.prn a) t) (hr : regIndex? a = some r) :
    t.out = s.out ++ [s.getReg r] := by
  cases h with
  | illegal hwf =>
    have ha : a.toNat < 8 := regIndex?_eq_some.mp hr ▸ r.isLt
    cases hwf.symm.trans ((wf_one rfl).mpr ha)
  | prn hr' =>
    cases hr.symm.trans hr'
    simp

/-- Every other instruction, and a print whose operand names no register, keeps the output. -/
theorem Effect.out_of_not_print (h : Effect s i t) (hn : ∀ a r, i = .prn a → regIndex? a ≠ some r) :
    t.out = s.out := by
  cases h with
  | prn hr => exact absurd hr (hn _ _ rfl)
  | _ => simp

/-- Settles O22, by the case analysis of `Effect`: its print case alone emits. -/
theorem outputIsAppendedByPrintAlone : Obligations.OutputIsAppendedByPrintAlone := by
  unfold Obligations.OutputIsAppendedByPrintAlone
  intro s t h
  constructor
  · intro a r hd hr
    exact (step_effect_of_decode h hd).out_of_print hr
  · intro hn
    obtain ⟨i, hi, heff⟩ | ⟨e, -, rfl⟩ := step_effect h
    · refine heff.out_of_not_print fun a r hia => hn a r ?_
      rw [hi, hia]
    · simp

end Sys2Proof.Machine
end

section
/-! SUPPORT. Memory after a sequence of writes, and after a load (spec/20_memory.md R41, R42, R43). -/

namespace Sys2Proof.Machine

variable {s t : State} {img : List Byte}

/-- The state after one-byte writes, the first pair of the list first. -/
def State.memWrites (s : State) (ws : List (Byte × Byte)) : State := ws.foldl (fun u w => u.memWrite w.1 w.2) s

/-- The value of the last write of a list to an address. -/
def lastWrite? (ws : List (Byte × Byte)) (a : Byte) : Option Byte :=
  (ws.filter fun w => w.1 = a).getLast?.map fun w => w.2

@[simp] theorem State.memWrites_append_singleton (s : State) (ws : List (Byte × Byte)) (w : Byte × Byte) :
    s.memWrites (ws ++ [w]) = (s.memWrites ws).memWrite w.1 w.2 := by
  simp [State.memWrites]

@[simp] theorem lastWrite?_append_singleton (ws : List (Byte × Byte)) (w : Byte × Byte) (a : Byte) :
    lastWrite? (ws ++ [w]) a = if a = w.1 then some w.2 else lastWrite? ws a := by
  by_cases h : w.1 = a
  · simp [lastWrite?, h]
  · simp [lastWrite?, h, Ne.symm h]

/-- A read after a sequence of writes, by induction from its end: the write made last decides first. -/
theorem State.memWrites_memRead (s : State) (ws : List (Byte × Byte)) (a : Byte) :
    (s.memWrites ws).memRead a = (lastWrite? ws a).getD (s.memRead a) := by
  induction ws using List.reverseRecOn with
  | nil => rfl
  | append_singleton ws w ih =>
    rw [State.memWrites_append_singleton, State.memWrite_memRead, lastWrite?_append_singleton, ih]
    split <;> rfl

/-- Settles O19, by induction over the writes from the last one back. -/
theorem readReturnsMostRecentWrite : Obligations.ReadReturnsMostRecentWrite :=
  State.memWrites_memRead

/-- The byte a store of consecutive bytes leaves at an address: the byte at its distance, mod 256, from the first
address. At most 256 bytes are stored, so the wrapping addresses never meet the first one again. -/
theorem State.storeBytes_memRead {vs : List Byte} (hlen : vs.length ≤ 256) (s : State) (a b : Byte) :
    (s.storeBytes a vs).memRead b = (vs[(b - a).toNat]?).getD (s.memRead b) := by
  induction vs generalizing s a with
  | nil => rfl
  | cons v vs ih =>
    rw [List.length_cons] at hlen
    rw [State.storeBytes, ih (by omega), State.memWrite_memRead]
    by_cases hb : b = a
    · subst hb
      have hend : vs.length ≤ (b - (b + 1)).toNat := by bv_omega
      rw [List.getElem?_eq_none hend]
      simp
    · have hnext : (b - a).toNat = (b - (a + 1)).toNat + 1 := by bv_omega
      rw [hnext, List.getElem?_cons_succ, if_neg hb]

/-- The loader accepts the images of at most 256 bytes and stores their bytes from address 0
(70_reset_and_hazards.md R192). -/
theorem hostLoad_eq_some : hostLoad img s = some t ↔ img.length ≤ 256 ∧ s.storeBytes 0 img = t :=
  Option.ite_none_right_eq_some.trans (and_congr_right' Option.some_inj)

/-- Memory after a load: the image from address 0, what was there before beyond it. -/
theorem hostLoad_memRead (h : hostLoad img s = some t) (a : Byte) :
    t.memRead a = (img[a.toNat]?).getD (s.memRead a) := by
  obtain ⟨hlen, rfl⟩ := hostLoad_eq_some.mp h
  simpa using State.storeBytes_memRead hlen s 0 a

@[simp] theorem reset_memRead (a : Byte) : State.reset.memRead a = 0 := rfl

/-- Settles O34: a started state is the reset state, whose bytes are all 0, after the load. -/
theorem loadedMemoryIsImageThenZeros : Obligations.LoadedMemoryIsImageThenZeros := by
  refine ⟨reset_memRead, fun img t h a => ?_⟩
  rw [hostLoad_memRead h a, reset_memRead]

end Sys2Proof.Machine
end

section
/-! SUPPORT. The operand count of an opcode byte, and what the byte decoder and the fetch take by it
(spec/30_encoding.md R60, R66). -/

namespace Sys2Proof

/-- The two high bits of a byte are its quotient by 64. -/
theorem operandCount_eq (ir : Byte) : operandCount ir = ir.toNat / 64 := by
  simp only [operandCount, bitField]
  omega

theorem Format.operands_le_two (f : Format) : f.operands ≤ 2 := by cases f <;> decide

/-- The encoder writes the operand bytes of the format (30_encoding.md R65). -/
theorem Instr.operandBytes_length (i : Instr) : i.operandBytes.length = i.op.row.format.operands := by
  cases i <;> rfl

/-- A byte that decodes counts at most two operand bytes: no table row has the field 3. -/
theorem operandCount_le_two_of_decode {ir a b : Byte} {i : Instr} (h : decode ir a b = .ok i) :
    operandCount ir ≤ 2 := by
  obtain ⟨op, rfl, -⟩ := decode_eq_ok.mp h
  rw [Opcode.operandCount_byte]
  exact op.row.format.operands_le_two

/-- What `decodeBytes` accepts after an opcode byte, and what it leaves. -/
theorem decodeBytes_cons_eq_ok {ir : Byte} {bs rest : List Byte} {i : Instr} :
    decodeBytes (ir :: bs) = .ok (i, rest) ↔
      decode ir (bs.getD 0 0) (bs.getD 1 0) = .ok i ∧ operandCount ir ≤ bs.length ∧
        bs.drop (operandCount ir) = rest := by
  rw [decodeBytes]
  cases decode ir (bs.getD 0 0) (bs.getD 1 0) with
  | error e => simp
  | ok j =>
    by_cases hlen : bs.length < operandCount ir
    · simp [hlen]
    · simp [hlen, Nat.le_of_not_lt hlen]

/-- Settles O3: the count is the format's, at most two, and a decode drops the counted bytes. -/
theorem opcodeByteGivesLength : Obligations.OpcodeByteGivesLength := by
  refine ⟨fun i => ⟨i.op.byte, i.operandBytes, rfl, ?_, ?_⟩, fun ir a b i h => ?_, fun ir bs i rest h => ?_⟩
  · rw [← operandCount_eq, Opcode.operandCount_byte, Instr.operandBytes_length]
  · rw [Instr.operandBytes_length]
    exact i.op.row.format.operands_le_two
  · have hcount := operandCount_le_two_of_decode h
    rw [operandCount_eq] at hcount
    omega
  · obtain ⟨-, hlen, rfl⟩ := decodeBytes_cons_eq_ok.mp h
    rw [← operandCount_eq, List.length_drop, Nat.sub_add_cancel hlen]

namespace Machine

@[simp] theorem fetch_ir (s : State) : (fetch s).ir = s.memRead s.pc := rfl

/-- The first operand slot is read where the count is at least 1 (30_encoding.md R66). -/
theorem fetch_a (s : State) :
    (fetch s).a = if 1 ≤ operandCount (s.memRead s.pc) then s.memRead (s.pc + 1) else 0 := rfl

/-- The second operand slot is read where the count is at least 2, so where it is 3 too (30_encoding.md R66). -/
theorem fetch_b (s : State) :
    (fetch s).b = if 2 ≤ operandCount (s.memRead s.pc) then s.memRead (s.pc + 2) else 0 := rfl

/-- An address masked to 8 bits is the sum of bytes (00_scope.md R10). -/
theorem ofNat_toNat_add_mod (a : Byte) (k : Nat) :
    BitVec.ofNat 8 ((a.toNat + k) % 256) = a + BitVec.ofNat 8 k := by
  apply BitVec.eq_of_toNat_eq
  simp

/-- Settles O6: each clause is one branch of a slot's equation. -/
theorem fetchReadsCountedOperands : Obligations.FetchReadsCountedOperands := by
  intro s
  simp only [← operandCount_eq, ofNat_toNat_add_mod]
  refine ⟨fetch_ir s, fun h => ?_, fun h => ?_, fun h => ?_, fun h => ?_⟩
  · exact (fetch_a s).trans (if_pos h)
  · exact (fetch_b s).trans (if_pos h)
  · exact (fetch_a s).trans (if_neg (by omega))
  · exact (fetch_b s).trans (if_neg (by omega))

end Machine
end Sys2Proof
end

section
/-! SUPPORT. Where dispatch leaves the program counter: past a sequential instruction (spec/40_dispatch.md R88), and on
the spot for a jump to its own address (R93). -/

namespace Sys2Proof.Machine

variable {a : Byte} {s t : State} {i : Instr}

/-- The address after an instruction as a number, which wraps at 256 (00_scope.md R10). -/
theorem nextAddress_toNat (op : Opcode) (p : Byte) :
    (nextAddress op p).toNat = (p.toNat + op.row.format.operands + 1) % 256 := by
  rw [nextAddress_eq]
  simp [Nat.add_assoc]

/-- Outside the control-flow class, what neither halts nor faults leaves `pc` at the next instruction. -/
theorem Effect.pc_of_sequential (h : Effect s i t) (hc : i.op.row.cls ≠ .controlFlow) (hh : i ≠ .hlt)
    (hf : t.status ≠ .faulted) : t.pc = nextAddress i.op s.pc := by
  cases h with
  | illegal | divZero => exact absurd rfl hf
  | hlt => exact absurd rfl hh
  | call | ret | jmp | jeqTaken | jeqNot | jneTaken | jneNot => exact absurd rfl hc
  | ldi | st | push | pop | prn | add | sub | mul | div | cmp => rfl

/-- Settles O25: the next address counts the operands of the instruction's format, which are the bytes encoded. -/
theorem routedSequentialInstructionAdvancesPc : Obligations.RoutedSequentialInstructionAdvancesPc := by
  intro i s t hcls hh _ h hf
  have hc : i.op.row.cls ≠ .controlFlow := by rcases hcls with hcls | hcls <;> simp [hcls]
  rw [(exec_effect h).pc_of_sequential hc hh hf, nextAddress_toNat, Instr.operandBytes_length]

/-- A running core's step is the instruction its fetched bytes decode to. -/
theorem step_of_decode (hs : s.status = .running) (hd : decode (fetch s).ir (fetch s).a (fetch s).b = .ok i) :
    step s = exec i s := by
  obtain ⟨j, hj, hstep⟩ | ⟨e, he, -⟩ := step_running hs
  · cases hd.symm.trans hj
    exact hstep
  · cases hd.symm.trans he

/-- A jump to the jump's own address steps to the very state it started from. -/
theorem step_selfJump (ha : a.toNat < 8) (hs : s.status = .running)
    (hd : decode (fetch s).ir (fetch s).a (fetch s).b = .ok (.jmp a)) (hpc : s.getReg ⟨a.toNat, ha⟩ = s.pc) :
    step s = .next s := by
  rw [step_of_decode hs hd, exec_jmp ha, hpc]
  rfl

/-- A state that steps to itself is where every run from it stands. -/
theorem run_of_step_self {M : Host.Core} {s : M.State} (h : M.step s = .next s) (k : Nat) : M.run k s = .next s := by
  induction k with
  | zero => rfl
  | succ k ih =>
    rw [Host.Core.run, h]
    exact ih

/-- The reset state with `JMP R0` loaded at address 0, which is also the value of R0 and of `pc` after reset. -/
def selfJumpAtReset : State := State.reset.storeBytes 0 (encode (.jmp 0))

theorem step_selfJumpAtReset : step selfJumpAtReset = .next selfJumpAtReset :=
  step_selfJump (a := 0) (by decide) rfl rfl rfl

/-- Settles O27: a self-jump is a fixed point of `step`, and the loaded one above shows that there are such states. -/
theorem selfJumpRunsForever : Obligations.SelfJumpRunsForever := by
  refine ⟨⟨selfJumpAtReset, fun k => ⟨selfJumpAtReset, ?_, rfl⟩⟩, fun s a ha hs hd hpc k => ?_⟩
  · exact run_of_step_self (M := core) (s := selfJumpAtReset) step_selfJumpAtReset k
  · exact run_of_step_self (M := core) (s := s) (step_selfJump ha hs hd hpc) k

end Sys2Proof.Machine
end

section
/-! SUPPORT. What a call leaves on the stack, and how a return takes it back (spec/43_control_flow.md R140, R141,
R147). -/

namespace Sys2Proof.Machine

open Sys2Proof.Claims

variable {a p v : Byte} {s : State}

/-- A call grows the stack by the address after it and writes no register but R7 (43_control_flow.md R140). -/
theorem exec_call_pushes (s : State) (ha : a.toNat < 8) :
    ∃ t, exec (.call a) s = .next t ∧ RegsKeptExcept [7] s t ∧ t.sp = s.sp - 1 ∧
      ∀ b, t.memRead b = if b = s.sp - 1 then s.pc + 2 else s.memRead b := by
  refine ⟨_, exec_call ha, fun r hr => ?_, by simp, by simp⟩
  have hsp : r ≠ Config.spReg := List.ne_of_not_mem_cons hr
  simp [hsp]

/-- A return that finds `v` one below the stack pointer `p` resumes at `v` with stack pointer `p`, and keeps memory
(43_control_flow.md R141). -/
theorem exec_ret_pops (hsp : s.sp = p - 1) (hv : s.memRead (p - 1) = v) :
    ∃ t, exec .ret s = .next t ∧ t.pc = v ∧ t.sp = p ∧ ∀ b, t.memRead b = s.memRead b := by
  have htop : s.topOfStack = v := by rw [State.topOfStack, hsp, hv]
  exact ⟨_, exec_ret, by simp [htop], by simp [hsp], by simp⟩

/-- Settles O31: the inner call pushes one byte below the outer return address, so the two returns find the two
addresses in turn. -/
theorem returnResumesAfterItsCall : Obligations.ReturnResumesAfterItsCall := by
  intro s a ha
  obtain ⟨t, ht, hregs, htsp, htmem⟩ := exec_call_pushes s ha
  have htop : t.memRead (s.sp - 1) = s.pc + 2 := by rw [htmem, if_pos rfl]
  refine ⟨t, ht, hregs, ?_⟩
  rw [htsp, htop]
  refine ⟨rfl, fun u husp hu => ?_, fun u c hc husp hu => ?_⟩
  · obtain ⟨v, hv, hvpc, hvsp, -⟩ := exec_ret_pops husp hu
    exact ⟨v, hv, hvpc, hvsp⟩
  · obtain ⟨w, hw, -, hwsp, hwmem⟩ := exec_call_pushes u hc
    have hinner : w.memRead (u.sp - 1) = u.pc + 2 := by rw [hwmem, if_pos rfl]
    have houter : w.memRead (s.sp - 1) = s.pc + 2 := by
      have hne : s.sp - 1 ≠ u.sp - 1 := by rw [husp]; bv_omega
      rw [hwmem, if_neg hne, hu]
    refine ⟨w, hw, ?_⟩
    rw [hwsp, hinner, houter]
    intro x hxsp hxinner hxouter
    obtain ⟨y, hy, hypc, hysp, hymem⟩ := exec_ret_pops hxsp hxinner
    refine ⟨y, hy, hypc, ?_⟩
    rw [hysp, husp, hymem, hxouter]
    intro z hzsp hz
    obtain ⟨v, hv, hvpc, hvsp, -⟩ := exec_ret_pops hzsp hz
    exact ⟨v, hv, hvpc, hvsp⟩

end Sys2Proof.Machine
end

section
/-! SUPPORT. The encoder and the byte decoder undo each other, and what the decoder reads of the operand slots
(spec/30_encoding.md sections 2 to 4). -/

namespace Sys2Proof

open Sys2Proof.Claims

/-- An opcode makes of the operand bytes, whatever follows them, the instruction they were taken from. -/
theorem Instr.instr_operandBytes_append (i : Instr) (rest : List Byte) :
    i.op.instr ((i.operandBytes ++ rest).getD 0 0) ((i.operandBytes ++ rest).getD 1 0) = i := by
  cases i <;> rfl

/-- The operand count in the opcode byte is the number of operand bytes encoded (30_encoding.md R60). -/
theorem Instr.operandCount_eq_length (i : Instr) : operandCount i.op.byte = i.operandBytes.length := by
  rw [Opcode.operandCount_byte, Instr.operandBytes_length]

/-- Settles O1: the opcode byte decodes to its opcode and counts exactly the operand bytes that follow it. -/
theorem decodeReadsBackEncodedInstruction : Obligations.DecodeReadsBackEncodedInstruction := by
  intro i rest
  rw [encode, List.cons_append, decodeBytes_cons_eq_ok]
  refine ⟨?_, ?_, ?_⟩
  · rw [decode_byte, Instr.instr_operandBytes_append]
  · rw [Instr.operandCount_eq_length, List.length_append]
    exact Nat.le_add_right _ _
  · rw [Instr.operandCount_eq_length, List.drop_left]

/-- The instruction of an opcode keeps the operand slots of its format. -/
theorem Opcode.operandBytes_instr (op : Opcode) (a b : Byte) :
    (op.instr a b).operandBytes = [a, b].take op.row.format.operands := by
  cases op <;> rfl

/-- The two operand slots of a byte sequence, cut to a count the sequence has bytes for. -/
theorem take_operandSlots {n : Nat} {bs : List Byte} (hn : n ≤ 2) (hlen : n ≤ bs.length) :
    [bs.getD 0 0, bs.getD 1 0].take n = bs.take n := by
  match n, bs, hn with
  | 0, _, _ => rfl
  | 1, _ :: _, _ => rfl
  | 2, _ :: _ :: _, _ => rfl

/-- Settles O2: the opcode is the byte's own, and the operand bytes are the counted bytes after it. -/
theorem decodedBytesAreTheEncoding : Obligations.DecodedBytesAreTheEncoding := by
  intro bs rest i h
  cases bs with
  | nil => cases h
  | cons ir bs =>
    obtain ⟨hd, hlen, hrest⟩ := decodeBytes_cons_eq_ok.mp h
    obtain ⟨op, rfl, rfl⟩ := decode_eq_ok.mp hd
    rw [Opcode.operandCount_byte] at hlen hrest
    have htake := take_operandSlots op.row.format.operands_le_two hlen
    rw [encode, Opcode.instr_op, Opcode.operandBytes_instr, htake, ← hrest, List.cons_append, List.take_append_drop]

/-- Settles O4: words written out, so the decoder is run on each. -/
theorem writtenOutWordsDecode : Obligations.WrittenOutWordsDecode := by
  unfold Obligations.WrittenOutWordsDecode
  decide

/-- The known bytes are the bytes of the opcode map. -/
theorem mem_knownBytes {ir : Byte} : ir ∈ knownBytes ↔ ∃ op : Opcode, op.byte = ir := by
  have hperm : knownBytes.Perm (Opcode.all.map Opcode.byte) := by decide
  rw [hperm.mem_iff, List.mem_map]
  exact ⟨fun ⟨op, _, h⟩ => ⟨op, h⟩, fun ⟨op, h⟩ => ⟨op, op.mem_all, h⟩⟩

theorem not_mem_knownBytes {ir : Byte} : ir ∉ knownBytes ↔ ∀ op : Opcode, op.byte ≠ ir := by
  rw [mem_knownBytes, not_exists]

/-- The class selector is bits 5 and 4 of the opcode byte (30_encoding.md R61). -/
theorem classSelector_eq (ir : Byte) : classSelector ir = ir.toNat / 16 % 4 := rfl

/-- Settles O5: an unknown byte is rejected by its selector, and the counts are read off the opcode map. -/
theorem unknownBytesRejectedByClass : Obligations.UnknownBytesRejectedByClass := by
  refine ⟨fun ir a b h => ?_, fun ir a b h => ?_, rfl, rfl⟩
  · rw [← classSelector_eq]
    split
    · exact decode_unknownClass ‹_›
    · exact decode_unknownOpcode ‹_› (not_mem_knownBytes.mp h)
  · obtain ⟨op, rfl⟩ := mem_knownBytes.mp h
    exact ⟨_, decode_byte op a b⟩

/-- A slot that the opcode byte does not count is not read by the decoder (30_encoding.md R66, R67). -/
theorem decode_countedSlots (ir a b : Byte) :
    decode ir (if 1 ≤ operandCount ir then a else 0) (if 2 ≤ operandCount ir then b else 0) = decode ir a b := by
  by_cases hop : ∃ op : Opcode, op.byte = ir
  · obtain ⟨op, rfl⟩ := hop
    rw [decode_byte, decode_byte, Opcode.operandCount_byte]
    cases op <;> rfl
  · rw [not_exists] at hop
    by_cases hc : classSelector ir = 3
    · rw [decode_unknownClass hc, decode_unknownClass hc]
    · rw [decode_unknownOpcode hc hop, decode_unknownOpcode hc hop]

/-- The opcode byte of what a decode gives is the byte decoded. -/
theorem byte_of_decode {ir a b : Byte} {i : Instr} (h : decode ir a b = .ok i) : i.op.byte = ir := by
  obtain ⟨op, hop, rfl⟩ := decode_eq_ok.mp h
  rw [Opcode.instr_op, hop]

end Sys2Proof
end

section
/-! SUPPORT. The step of a running core through the three bytes at `pc`, and that a running core always has one
(spec/40_dispatch.md sections 1 and 2). -/

namespace Sys2Proof.Machine

variable {a b : Byte} {op : Opcode} {s t : State} {i : Instr}

/-- The three bytes a fetch can reach, each address mod 256. -/
def State.bytesAtPc (s : State) : List Byte := [s.memRead s.pc, s.memRead (s.pc + 1), s.memRead (s.pc + 2)]

/-- Decoding the latches is decoding the bytes at `pc`: a slot the fetch leaves 0 is one the decoder does not read. -/
theorem decode_fetch (s : State) : decode (fetch s).ir (fetch s).a (fetch s).b =
    decode (s.memRead s.pc) (s.memRead (s.pc + 1)) (s.memRead (s.pc + 2)) :=
  decode_countedSlots _ _ _

/-- A running core executes the instruction whose encoding the bytes at `pc` begin with: the decoder reads back what
was encoded there. -/
theorem step_of_encode_prefix (hs : s.status = .running) (h : encode i <+: s.bytesAtPc) : step s = exec i s := by
  obtain ⟨rest, hbytes⟩ := h
  have hdec : decodeBytes s.bytesAtPc = .ok (i, rest) := hbytes ▸ decodeReadsBackEncodedInstruction i rest
  obtain ⟨hd, -, -⟩ := decodeBytes_cons_eq_ok.mp hdec
  exact step_of_decode hs ((decode_fetch s).trans hd)

theorem encode_length_le_three (i : Instr) : (encode i).length ≤ 3 := by
  rw [encode, List.length_cons, Instr.operandBytes_length]
  exact Nat.succ_le_succ (Format.operands_le_two _)

theorem State.bytesAtPc_getElem (s : State) {k : Nat} (hk : k < s.bytesAtPc.length) :
    s.bytesAtPc[k] = s.memRead (s.pc + BitVec.ofNat 8 k) := by
  match k, hk with
  | 0, _ => simp [State.bytesAtPc]
  | 1, _ => rfl
  | 2, _ => rfl

/-- Settles O7: the bytes named one by one are the first bytes at `pc`. -/
theorem stepRunsDecodedInstruction : Obligations.StepRunsDecodedInstruction := by
  intro s i hs h
  refine step_of_encode_prefix hs (List.prefix_iff_getElem.mpr ⟨encode_length_le_three i, fun k hk => ?_⟩)
  rw [State.bytesAtPc_getElem, h k hk]

theorem decodeTableWord_eq_some {nbits w : Nat} :
    decodeTableWord nbits w = some i ↔ ∃ rest, decodeBytes (tableWordBytes nbits w) = .ok (i, rest) := by
  unfold decodeTableWord
  split
  next j rest hj => simp [hj]
  next e he => simp [he]

/-- The placed word stands in the bytes at `pc`. -/
theorem State.withFetchWord_bytesAtPc (s : State) (nbits w : Nat) :
    (s.withFetchWord nbits w).bytesAtPc = tableWordBytes nbits w := by
  have hpc : (s.withFetchWord nbits w).pc = s.pc := by rw [State.withFetchWord, State.storeBytes_eq]
  have h1 : s.pc ≠ s.pc + 1 := by bv_omega
  have h2 : s.pc ≠ s.pc + 2 := by bv_omega
  have h12 : s.pc + 1 ≠ s.pc + 2 := by bv_omega
  rw [State.bytesAtPc, hpc, State.withFetchWord, tableWordBytes]
  simp only [State.storeBytes_three, h1, h2, h12, if_true, if_false]

/-- Settles O8: the word's bytes begin with the encoding of what they decode to. -/
theorem placedTableWordRunsNext : Obligations.PlacedTableWordRunsNext := by
  intro s nbits w i hs hw
  obtain ⟨rest, hrest⟩ := decodeTableWord_eq_some.mp hw
  have hmem : s.withFetchWord nbits w = { s with mem := (s.withFetchWord nbits w).mem } := State.storeBytes_eq s _ _
  refine ⟨step_of_encode_prefix ?_ ?_, fun a h0 h1 h2 => ?_, hmem⟩
  · rw [hmem]
    exact hs
  · rw [State.withFetchWord_bytesAtPc, decodedBytesAreTheEncoding _ _ _ hrest]
    exact List.prefix_append _ _
  · rw [State.withFetchWord, tableWordBytes, State.storeBytes_three, if_neg h2, if_neg h1, if_neg h0]

/-- A one-register meaning has a next state: the fault of its operand, or what it makes of the register. -/
theorem withReg_total {k : Reg → Result} (hk : ∀ r, ∃ t, k r = .next t) : ∃ t, withReg op a s k = .next t := by
  unfold withReg
  split
  · exact hk _
  · exact ⟨_, rfl⟩

theorem withRegs_total {k : Reg → Reg → Result} (hk : ∀ ra rb, ∃ t, k ra rb = .next t) :
    ∃ t, withRegs op a b s k = .next t :=
  withReg_total fun ra => withReg_total (hk ra)

/-- Every instruction has a next state from every state. -/
theorem exec_total (i : Instr) (s : State) : ∃ t, exec i s = .next t := by
  cases i with
  | hlt | ret => exact ⟨_, rfl⟩
  | ldi | push | pop | prn | call | jmp | jeq | jne => exact withReg_total fun _ => ⟨_, rfl⟩
  | st | add | sub | mul | cmp => exact withRegs_total fun _ _ => ⟨_, rfl⟩
  | div =>
    refine withRegs_total fun ra rb => ?_
    split
    · exact ⟨_, rfl⟩
    · exact ⟨_, rfl⟩

/-- A running core has a step, whatever its memory holds. -/
theorem step_total (hs : s.status = .running) : ∃ t, step s = .next t := by
  obtain ⟨i, -, h⟩ | ⟨e, -, h⟩ := step_running hs
  · exact h ▸ exec_total i s
  · exact ⟨_, h⟩

/-- Settles O9: the branches of `step`, with `step_total` for the running core. -/
theorem onlyRunningCoreSteps : Obligations.OnlyRunningCoreSteps := by
  refine fun s => ⟨step_total, fun h => ?_, fun h => ?_, rfl⟩
  · simp [step, h]
  · simp [step, h]

end Sys2Proof.Machine
end

section
/-! SUPPORT. What a step does to the run status: the register and divisor checks, and when an instruction completes
(spec/40_dispatch.md section 2, spec/60_exceptions.md section 1). -/

namespace Sys2Proof

open Sys2Proof.Claims

/-- An instruction is ill-formed exactly when one of its register operands is 8..255. -/
theorem Instr.wf_eq_false {i : Instr} : i.wf = false ↔ ∃ r ∈ i.regOperands, 8 ≤ r.toNat := by
  simp [Instr.wf]

/-- How many of a format's operands name registers (40_dispatch.md R81). -/
def Format.registers : Format → Nat
  | .z => 0
  | .r | .ri => 1
  | .rr => 2

/-- The register operands of an opcode's instruction are the first slots, as many as its format says. -/
theorem Opcode.regOperands_instr (op : Opcode) (a b : Byte) :
    (op.instr a b).regOperands = [a, b].take op.row.format.registers := by
  cases op <;> rfl

theorem Opcode.byte_mem_oneRegisterBytes {op : Opcode} :
    op.byte ∈ oneRegisterBytes ↔ op.row.format.registers = 1 := by
  cases op <;> decide

theorem Opcode.byte_mem_twoRegisterBytes {op : Opcode} :
    op.byte ∈ twoRegisterBytes ↔ op.row.format.registers = 2 := by
  cases op <;> decide

end Sys2Proof

namespace Sys2Proof.Machine

open Sys2Proof.Claims

variable {s t : State} {i : Instr}

/-- Every ill-formed instruction raises IllegalRegister (40_dispatch.md R90). -/
theorem exec_of_not_wf (h : i.wf = false) (s : State) : exec i s = raise .illegalRegister i.op.byte s := by
  rw [Instr.wf_eq_false] at h
  cases i with
  | hlt | ret => simp [Instr.regOperands] at h
  | ldi | push | pop | prn | call | jmp | jeq | jne => exact withReg_of_ge (by simpa [Instr.regOperands] using h)
  | st | add | sub | mul | div | cmp => exact withRegs_of_ge (by simpa [Instr.regOperands] using h)

/-- Settles O12: the operand check is the first thing any meaning does. -/
theorem illegalRegisterOperandRaises : Obligations.IllegalRegisterOperandRaises :=
  fun i s h => ⟨i.op.byte, i.operandBytes, rfl, exec_of_not_wf (Instr.wf_eq_false.mpr h) s⟩

/-- Settles O13: both operands are readable, so the divisor check decides. -/
theorem divideByZeroRaises : Obligations.DivideByZeroRaises :=
  fun _ _ _ ha hb hz => exec_div_zero ha hb hz

/-- Settles O14: the two ports read off the record, one clause a cause. -/
theorem faultOutputsShowTheRecord : Obligations.FaultOutputsShowTheRecord := by
  refine fun s => ⟨fun h => ?_, fun c p ir h => ?_⟩
  · simp [faultCausePort, faultAddressPorts, h]
  · rw [faultCausePort, faultAddressPorts, h]
    exact ⟨rfl, by rintro rfl; rfl, by rintro rfl; rfl, by rintro rfl; rfl, by rintro rfl; rfl⟩

/-- How an instruction can leave the run: one of its two faults, the halt, or status and record as they were. -/
inductive RunEffect (s : State) : Instr → State → Prop
  | illegal {i : Instr} : i.wf = false → RunEffect s i (s.faultEntry .illegalRegister i.op.byte)
  | divZero {a b : Byte} {rb : Reg} : (Instr.div a b).wf = true → regIndex? b = some rb → s.getReg rb = 0 →
      RunEffect s (.div a b) (s.faultEntry .divideByZero Opcode.div.byte)
  | halts : RunEffect s .hlt s.halt
  | completes {i : Instr} {t : State} : t.status = s.status → t.fault = s.fault → RunEffect s i t

theorem wf_div_of_regIndex? {a b : Byte} {ra rb : Reg} (ha : regIndex? a = some ra) (hb : regIndex? b = some rb) :
    (Instr.div a b).wf = true := by
  rw [wf_two rfl, regIndex?_eq_some.mp ha, regIndex?_eq_some.mp hb]
  exact ⟨ra.isLt, rb.isLt⟩

/-- Every effect leaves the run in one of the four ways. -/
theorem Effect.runEffect (h : Effect s i t) : RunEffect s i t := by
  cases h with
  | illegal hwf => exact .illegal hwf
  | divZero ha hb hz => exact .divZero (wf_div_of_regIndex? ha hb) hb hz
  | hlt => exact .halts
  | _ => exact .completes rfl rfl

/-- A step that faults is a fault entry with the opcode byte at `pc`. -/
theorem step_faulted (h : step s = .next t) (ht : t.status = .faulted) :
    ∃ c, t = s.faultEntry c (s.memRead s.pc) := by
  obtain ⟨i, hd, heff⟩ | ⟨e, -, rfl⟩ := step_effect h
  · have hbyte : i.op.byte = s.memRead s.pc := byte_of_decode hd
    cases heff.runEffect with
    | illegal => exact ⟨_, by rw [hbyte]⟩
    | divZero => exact ⟨_, by rw [← hbyte]; rfl⟩
    | halts => cases ht
    | completes hst =>
      rw [hst, step_next_running h] at ht
      cases ht
  · exact ⟨_, rfl⟩

/-- Settles O11: a fault entry writes the status and the record alone. -/
theorem faultingStepWritesOnlyItsRecord : Obligations.FaultingStepWritesOnlyItsRecord :=
  fun _ _ h ht => step_faulted h ht

/-- A well-formed instruction that neither halts nor divides by zero completes. -/
theorem exec_completes (hwf : i.wf = true) (hh : i ≠ .hlt)
    (hz : ∀ a b rb, i = .div a b → regIndex? b = some rb → s.getReg rb ≠ 0) :
    ∃ t, exec i s = .next t ∧ t.status = s.status ∧ t.fault = s.fault := by
  obtain ⟨t, ht⟩ := exec_total i s
  refine ⟨t, ht, ?_⟩
  cases (exec_effect ht).runEffect with
  | illegal hf => cases hwf.symm.trans hf
  | divZero _ hb hz' => exact absurd hz' (hz _ _ _ rfl hb)
  | halts => exact absurd rfl hh
  | completes hst hfault => exact ⟨hst, hfault⟩

/-- A running core with a byte of the opcode map at `pc` executes its instruction on the two bytes after it. -/
theorem step_of_opcode (hs : s.status = .running) {op : Opcode} (hop : op.byte = s.memRead s.pc) :
    step s = exec (op.instr (s.memRead (s.pc + 1)) (s.memRead (s.pc + 2))) s :=
  step_of_decode hs (by rw [decode_fetch, ← hop, decode_byte])

/-- A running core on a rejected byte takes the fault of the rejection. -/
theorem step_of_decode_error (hs : s.status = .running) {e : DecodeError}
    (he : decode (s.memRead s.pc) (s.memRead (s.pc + 1)) (s.memRead (s.pc + 2)) = .error e) :
    step s = .next (s.faultEntry (causeOfDecodeError e) (s.memRead s.pc)) := by
  obtain ⟨i, hi, -⟩ | ⟨e', he', h⟩ := step_running hs
  · cases ((decode_fetch s).symm.trans hi).symm.trans he
  · cases ((decode_fetch s).symm.trans he').symm.trans he
    exact h

/-- A running core on an opcode whose instruction has a register operand of 8..255 raises IllegalRegister. -/
theorem step_of_illegal_operand (hs : s.status = .running) {op : Opcode} (hop : op.byte = s.memRead s.pc)
    (h : ∃ r ∈ [s.memRead (s.pc + 1), s.memRead (s.pc + 2)].take op.row.format.registers, 8 ≤ r.toNat) :
    step s = .next (s.faultEntry .illegalRegister (s.memRead s.pc)) := by
  rw [← Opcode.regOperands_instr, ← Instr.wf_eq_false] at h
  rw [step_of_opcode hs hop, exec_of_not_wf h, Opcode.instr_op, hop, raise]

end Sys2Proof.Machine
end

section
/-! SUPPORT. Which condition a step reports (spec/60_exceptions.md R166). -/

namespace Sys2Proof

open Sys2Proof.Claims

theorem exists_of_mem_oneRegisterBytes {ir : Byte} (h : ir ∈ oneRegisterBytes) :
    ∃ op : Opcode, op.byte = ir ∧ op.row.format.registers = 1 := by
  obtain ⟨op, rfl⟩ := mem_knownBytes.mp (List.mem_append_left _ (List.mem_append_right _ h))
  exact ⟨op, rfl, Opcode.byte_mem_oneRegisterBytes.mp h⟩

theorem exists_of_mem_twoRegisterBytes {ir : Byte} (h : ir ∈ twoRegisterBytes) :
    ∃ op : Opcode, op.byte = ir ∧ op.row.format.registers = 2 := by
  obtain ⟨op, rfl⟩ := mem_knownBytes.mp (List.mem_append_right _ h)
  exact ⟨op, rfl, Opcode.byte_mem_twoRegisterBytes.mp h⟩

theorem Opcode.wf_instr_of_readable {op : Opcode} {a b : Byte} (h1 : op.byte ∈ oneRegisterBytes → a.toNat < 8)
    (h2 : op.byte ∈ twoRegisterBytes → a.toNat < 8 ∧ b.toNat < 8) : (op.instr a b).wf = true := by
  rw [Opcode.byte_mem_oneRegisterBytes] at h1
  rw [Opcode.byte_mem_twoRegisterBytes] at h2
  rw [Instr.wf, Opcode.regOperands_instr]
  cases hf : op.row.format with
  | z => rfl
  | r | ri => simpa [Format.registers] using h1 (by rw [hf]; rfl)
  | rr => simpa [Format.registers] using h2 (by rw [hf]; rfl)

theorem Opcode.eq_div_of_instr {op : Opcode} {a b a' b' : Byte} (h : op.instr a b = .div a' b') :
    op = .div ∧ b' = b := by
  have hop : op = .div := by rw [← Opcode.instr_op op a b, h]; rfl
  subst hop
  cases h
  exact ⟨rfl, rfl⟩

end Sys2Proof

namespace Sys2Proof.Machine

open Sys2Proof.Claims

/-- Settles O10: the byte at `pc` is rejected, or is an opcode's whose operands are checked before it completes. -/
theorem stepReportsFirstCondition : Obligations.StepReportsFirstCondition := by
  intro s ir a b hs hir ha hb
  subst ha hb
  refine ⟨fun h => ?_, fun _ h => ?_, fun hc h => ?_, fun h ha => ?_, fun h hab => ?_, fun hb h ha hz => ?_,
    fun hk hne h1 h2 hz => ?_⟩
  · exact step_of_opcode hs (op := .hlt) (h.symm.trans hir)
  · subst hir
    exact step_of_decode_error hs (decode_unknownClass h)
  · subst hir
    exact step_of_decode_error hs (decode_unknownOpcode hc (not_mem_knownBytes.mp h))
  · obtain ⟨op, hop, hreg⟩ := exists_of_mem_oneRegisterBytes h
    subst hir
    exact step_of_illegal_operand hs hop (by simpa [hreg] using ha)
  · obtain ⟨op, hop, hreg⟩ := exists_of_mem_twoRegisterBytes h
    subst hir
    exact step_of_illegal_operand hs hop (by simpa [hreg] using hab)
  · rw [step_of_opcode hs (op := .div) (h.symm.trans hir), h]
    exact exec_div_zero ha hb hz
  · obtain ⟨op, rfl⟩ := mem_knownBytes.mp hk
    rw [step_of_opcode hs hir, ← hs]
    refine exec_completes (Opcode.wf_instr_of_readable h1 h2) (fun hi => hne ?_) (fun a' b' rb hi hrb => ?_)
    · rw [← Opcode.instr_op op, hi]
      rfl
    · obtain ⟨rfl, rfl⟩ := Opcode.eq_div_of_instr hi
      exact hz rfl rb (regIndex?_eq_some.mp hrb).symm

end Sys2Proof.Machine
end

section
/-! SUPPORT. The flag byte, the memory and the stop after a step, and the machine's invariant along a run
(spec/10_state.md sections 4 and 5, spec/40_dispatch.md section 3). -/

namespace Sys2Proof.Machine

variable {s t : State} {i : Instr}

/-- Only a compare writes the flag byte (10_state.md R29). -/
theorem Effect.fl_of_not_cmp (h : Effect s i t) (hn : ∀ a b, i ≠ .cmp a b) : t.fl = s.fl := by
  cases h with
  | cmp => exact absurd rfl (hn _ _)
  | _ => rfl

/-- Settles O20: the case analysis of `Effect`, whose compare case is excluded. -/
theorem onlyCompareWritesFlags : Obligations.OnlyCompareWritesFlags :=
  fun _ _ _ h hn => (exec_effect h).fl_of_not_cmp hn

/-- The flag values of 10_state.md R30: none set, or exactly one of E, G, L. -/
def legalFlags (f : Byte) : Prop := f = 0 ∨ f = flagE ∨ f = flagG ∨ f = flagL

theorem legalFlags_compareFlags (u v : Byte) : legalFlags (compareFlags u v) := by
  obtain ⟨-, h⟩ | ⟨-, h⟩ | ⟨-, h⟩ := compareFlags_cases u v
  · exact .inr (.inr (.inr h))
  · exact .inr (.inr (.inl h))
  · exact .inr (.inl h)

theorem Effect.legalFlags (h : Effect s i t) (hf : legalFlags s.fl) : legalFlags t.fl := by
  cases h with
  | cmp => exact legalFlags_compareFlags _ _
  | _ => exact hf

/-- Memory after an instruction is the old one or one write to it, so its canonical form is kept (log 12). -/
theorem Effect.mem_wf (h : Effect s i t) (hm : Memory.wf s.mem) : Memory.wf t.mem := by
  cases h with
  | st | push | call => exact Memory.wf_write hm _ _
  | _ => exact hm

/-- A fault entry is explained when its cause holds: `pc` and the bytes at it are still the faulting instruction's
(60_exceptions.md R167). -/
theorem stopExplained_faultEntry {c : FaultCause} (h : causeHolds c s) :
    stopExplained (s.faultEntry c (s.memRead s.pc)) := ⟨rfl, rfl, h⟩

/-- A running core whose stop is explained has no record. -/
theorem fault_eq_none (hs : s.status = .running) (h : stopExplained s) : s.fault = none := by
  unfold stopExplained at h
  rw [hs] at h
  cases hf : s.fault with
  | none => rfl
  | some f => simp [hf] at h

theorem stopExplained_of_running (hs : s.status = .running) (hf : s.fault = none) : stopExplained s := by
  simp [stopExplained, hs, hf]

theorem stopExplained_halt (hf : s.fault = none) (h : s.memRead s.pc = Opcode.hlt.byte) : stopExplained s.halt := by
  unfold stopExplained
  rw [State.halt_fault, hf]
  exact h

/-- The cause of a rejected byte holds where it was fetched. -/
theorem causeHolds_of_decode_error {e : DecodeError} (h : decode (fetch s).ir (fetch s).a (fetch s).b = .error e) :
    causeHolds (causeOfDecodeError e) s := by
  obtain ⟨hn, ⟨rfl, hc⟩ | ⟨rfl, hc⟩⟩ := decode_eq_error h
  · exact ⟨(hn .hlt).symm, hc⟩
  · exact ⟨hc, Opcode.ofByte?_eq_none.mpr hn⟩

/-- The stop, if any, that an instruction leaves is explained by the bytes it was decoded from. -/
theorem RunEffect.stopExplained (h : RunEffect s i t) (hs : s.status = .running) (hf : s.fault = none)
    (hd : decode (fetch s).ir (fetch s).a (fetch s).b = .ok i) : stopExplained t := by
  have hbyte : i.op.byte = s.memRead s.pc := byte_of_decode hd
  cases h with
  | illegal hwf =>
    rw [hbyte]
    exact stopExplained_faultEntry ⟨i, hd, hwf⟩
  | @divZero a b rb hwf hb hz =>
    have hir : Opcode.div.byte = s.memRead s.pc := hbyte
    rw [hir]
    exact stopExplained_faultEntry ⟨a, b, rb, hd, hwf, hb, hz⟩
  | halts => exact stopExplained_halt hf hbyte.symm
  | completes hst hfault => exact stopExplained_of_running (hst.trans hs) (hfault.trans hf)

/-- Settles O15: each part of the invariant over the effects of an instruction, and over the fault entry of a rejected
byte. -/
theorem stepKeepsMachineInvariant : Obligations.StepKeepsMachineInvariant := by
  intro s t hinv h
  have hs := step_next_running h
  have hf := fault_eq_none hs hinv.stop_explained
  obtain ⟨i, hd, heff⟩ | ⟨e, he, rfl⟩ := step_effect h
  · exact ⟨heff.mem_wf hinv.mem_wf, heff.legalFlags hinv.fl_legal, heff.runEffect.stopExplained hs hf hd⟩
  · exact ⟨hinv.mem_wf, hinv.fl_legal, stopExplained_faultEntry (causeHolds_of_decode_error he)⟩

/-- Settles O16: every field of the reset state at its value. -/
theorem resetMeetsMachineInvariant : Obligations.ResetMeetsMachineInvariant :=
  ⟨Memory.wf_nil, .inl rfl, trivial⟩

/-- A load keeps the invariant of a running core: it writes memory alone, and no stop is to be explained. -/
theorem State.Inv.hostLoad {img : List Byte} (h : s.Inv) (hs : s.status = .running) (ht : hostLoad img s = some t) :
    t.Inv := by
  obtain ⟨-, rfl⟩ := hostLoad_eq_some.mp ht
  have hf := fault_eq_none hs h.stop_explained
  refine ⟨State.storeBytes_wf h.mem_wf 0 img, ?_, ?_⟩
  · rw [State.storeBytes_eq]
    exact h.fl_legal
  · rw [State.storeBytes_eq]
    exact stopExplained_of_running hs hf

/-- What every step keeps holds in every state of a run from where it holds. -/
theorem invariant_of_reaches {P : State → Prop} (hstep : ∀ s t, P s → step s = .next t → P t) (hs : P s)
    (h : Reaches s t) : P t := by
  induction h with
  | refl => exact hs
  | step _ hu ih => exact hstep _ _ ih hu

/-- Settles O17: the loaded reset state meets the invariant, and every step keeps it. -/
theorem everyBootedRunKeepsInvariant : Obligations.EveryBootedRunKeepsInvariant :=
  fun _ _ _ hboot h =>
    invariant_of_reaches stepKeepsMachineInvariant (resetMeetsMachineInvariant.hostLoad rfl hboot) h

end Sys2Proof.Machine
end

section
/-! SUPPORT. A canonical memory is determined by what it reads (spec/20_memory.md section 1, log 12). -/

namespace Sys2Proof.Machine

variable {m m' : Memory}

/-- The cells of a canonical memory are the addresses that read other than 0, each with the byte read there. -/
theorem Memory.mem_iff_read (hm : Memory.wf m) (c : Host.Cell) :
    c ∈ m ↔ c.1 < 256 ∧ c.2 ≠ 0 ∧ Memory.read m (BitVec.ofNat 8 c.1) = c.2 := by
  obtain ⟨hsorted, hcells⟩ := hm
  constructor
  · intro hc
    obtain ⟨hlt, hne⟩ := hcells c hc
    have haddr : c.1 = (BitVec.ofNat 8 c.1).toNat := (Nat.mod_eq_of_lt hlt).symm
    exact ⟨hlt, hne, Memory.read_of_mem hsorted hc haddr⟩
  · rintro ⟨hlt, hne, hread⟩
    have haddr : (BitVec.ofNat 8 c.1).toNat = c.1 := Nat.mod_eq_of_lt hlt
    by_contra hc
    refine hne (hread.symm.trans (Memory.read_of_forall_ne fun d hd hda => hc ?_))
    have hdc : d.1 = c.1 := hda.trans haddr
    have hval : c.2 = d.2 := hread.symm.trans (Memory.read_of_mem hsorted hd hda)
    rwa [Prod.ext hdc.symm hval]

/-- Strictly rising cells are pairwise different. -/
theorem Memory.nodup (hm : m.Pairwise (fun c d => c.1 < d.1)) : m.Nodup :=
  hm.imp fun h heq => (congrArg Prod.fst heq).not_lt h

/-- Settles O18: both memories hold the same cells in the same rising order. -/
theorem canonicalMemoryDeterminedByReads : Obligations.CanonicalMemoryDeterminedByReads := by
  intro m m' hm hm' hread
  have hmem : ∀ c, c ∈ m ↔ c ∈ m' := fun c => by
    rw [Memory.mem_iff_read hm, Memory.mem_iff_read hm', hread]
  have hperm : m.Perm m' := (List.perm_ext_iff_of_nodup (Memory.nodup hm.1) (Memory.nodup hm'.1)).mpr hmem
  exact hperm.eq_of_pairwise (fun c d _ _ hcd hdc => absurd hdc hcd.asymm) hm.1 hm'.1

end Sys2Proof.Machine
end

section
/-! SUPPORT. `Effect` is exactly `exec`, so a statement about two runs of an instruction is one case analysis; the
registers and flags an instruction reads and writes (spec/10_state.md sections 2 and 4). -/

namespace Sys2Proof.Machine

open Sys2Proof.Claims

variable {a b : Byte} {ra rb r : Reg} {op : Opcode} {s t : State} {i : Instr}

theorem withReg_of_regIndex? {k : Reg → Result} (ha : regIndex? a = some ra) : withReg op a s k = k ra := by
  rw [withReg, ha]

theorem withRegs_of_regIndex? {k : Reg → Reg → Result} (ha : regIndex? a = some ra) (hb : regIndex? b = some rb) :
    withRegs op a b s k = k ra rb := by
  rw [withRegs, withReg_of_regIndex? ha, withReg_of_regIndex? hb]

/-- The converse of `exec_effect`: every effect is the instruction's execution. -/
theorem Effect.exec_eq (h : Effect s i t) : exec i s = .next t := by
  cases h with
  | illegal hwf => exact exec_of_not_wf hwf s
  | hlt | ret => rfl
  | ldi ha | push ha | pop ha | prn ha | call ha | jmp ha => exact withReg_of_regIndex? ha
  | st ha hb | add ha hb | sub ha hb | mul ha hb | cmp ha hb => exact withRegs_of_regIndex? ha hb
  | divZero ha hb hz => exact (withRegs_of_regIndex? ha hb).trans (if_pos hz)
  | div ha hb hz => exact (withRegs_of_regIndex? ha hb).trans (if_neg hz)
  | jeqTaken ha he | jeqNot ha he | jneTaken ha he | jneNot ha he =>
    refine (withReg_of_regIndex? ha).trans ?_
    rw [he]
    rfl

/-- A register that is not the operand's is another register than the operand names. -/
theorem ne_of_regIndex? (ha : regIndex? a = some ra) (hr : r.val ≠ a.toNat) : r ≠ ra := by
  rintro rfl
  exact hr (regIndex?_eq_some.mp ha).symm

/-- A register outside the instruction's row of the table of 10_state.md R23 keeps its value. -/
theorem Effect.getReg_of_not_mayWrite (h : Effect s i t) (hr : ¬ mayWrite i r) : t.getReg r = s.getReg r := by
  cases h with
  | ldi ha | add ha | sub ha | mul ha | div ha =>
    have hra := ne_of_regIndex? ha hr
    simp [hra]
  | pop ha =>
    obtain ⟨hval, hsp⟩ := not_or.mp hr
    have hra := ne_of_regIndex? ha hval
    have hne : r ≠ Config.spReg := hsp
    simp [hra, hne]
  | push | call | ret =>
    have hne : r ≠ Config.spReg := hr
    simp [hne]
  | _ => rfl

/-- Settles O24: the table's row is what the effect writes. -/
theorem registersWrittenAreListed : Obligations.RegistersWrittenAreListed :=
  fun _ _ _ _ h hr => (exec_effect h).getReg_of_not_mayWrite hr

/-- With another flag byte an instruction has the same effect but for the flag byte. A conditional jump needs the same
bit E; a compare leaves the flag byte it would have left. -/
theorem Effect.with_flags (h : Effect s i t) {f : Byte}
    (hf : equalSet f = equalSet s.fl ∨ ((∀ a, i ≠ .jeq a) ∧ ∀ a, i ≠ .jne a)) :
    ∃ g, Effect { s with fl := f } i { t with fl := g } ∧
      (equalSet f = equalSet s.fl → equalSet g = equalSet t.fl) := by
  have hjeq : ∀ {a}, i = .jeq a → equalSet f = equalSet s.fl := fun hi => hf.resolve_right fun hn => hn.1 _ hi
  have hjne : ∀ {a}, i = .jne a → equalSet f = equalSet s.fl := fun hi => hf.resolve_right fun hn => hn.2 _ hi
  cases h with
  | illegal hwf => exact ⟨f, .illegal hwf, id⟩
  | divZero ha hb hz => exact ⟨f, .divZero ha hb hz, id⟩
  | hlt => exact ⟨f, .hlt, id⟩
  | ldi ha => exact ⟨f, .ldi ha, id⟩
  | st ha hb => exact ⟨f, .st ha hb, id⟩
  | push ha => exact ⟨f, .push ha, id⟩
  | pop ha => exact ⟨f, .pop ha, id⟩
  | prn ha => exact ⟨f, .prn ha, id⟩
  | add ha hb => exact ⟨f, .add ha hb, id⟩
  | sub ha hb => exact ⟨f, .sub ha hb, id⟩
  | mul ha hb => exact ⟨f, .mul ha hb, id⟩
  | div ha hb hz => exact ⟨f, .div ha hb hz, id⟩
  | cmp ha hb => exact ⟨_, .cmp ha hb, fun _ => rfl⟩
  | call ha => exact ⟨f, .call ha, id⟩
  | ret => exact ⟨f, .ret, id⟩
  | jmp ha => exact ⟨f, .jmp ha, id⟩
  | jeqTaken ha he => exact ⟨f, .jeqTaken ha ((hjeq rfl).trans he), id⟩
  | jeqNot ha he => exact ⟨f, .jeqNot ha ((hjeq rfl).trans he), id⟩
  | jneTaken ha he => exact ⟨f, .jneTaken ha ((hjne rfl).trans he), id⟩
  | jneNot ha he => exact ⟨f, .jneNot ha ((hjne rfl).trans he), id⟩

/-- Settles O21: the effect with another flag byte is again an execution. -/
theorem flagsReadOnlyThroughEqualBit : Obligations.FlagsReadOnlyThroughEqualBit := by
  intro i s t f h hf
  obtain ⟨g, heff, hg⟩ := (exec_effect h).with_flags hf
  exact ⟨g, heff.exec_eq, hg⟩

end Sys2Proof.Machine
end

section
/-! SUPPORT. The accesses of a step on the memory port (spec/00_scope.md section 3, spec/20_memory.md section 2). -/

namespace Sys2Proof.Machine

variable {a b : Byte} {ra rb : Reg} {acc : Access} {s t : State} {i : Instr} {m : Memory}

/-- The memory the accesses of a list leave. -/
def applyAccesses (accs : List Access) (m : Memory) : Memory := accs.foldl Access.applyTo m

@[simp] theorem applyAccesses_append (accs accs' : List Access) (m : Memory) :
    applyAccesses (accs ++ accs') m = applyAccesses accs' (applyAccesses accs m) := List.foldl_append

/-- Accesses that are all reads leave memory as it was. -/
theorem applyAccesses_of_reads {accs : List Access} (h : ∀ acc ∈ accs, acc.we = false) (m : Memory) :
    applyAccesses accs m = m := by
  induction accs with
  | nil => rfl
  | cons acc accs ih =>
    have hacc : acc.applyTo m = m := by
      cases acc with
      | read => rfl
      | write => cases h _ List.mem_cons_self
    rw [applyAccesses, List.foldl_cons, hacc]
    exact ih fun b hb => h b (List.mem_cons_of_mem _ hb)

/-- Every access of a fetch is a read of memory's byte. -/
theorem exists_read_of_mem_fetchAccesses (h : acc ∈ fetchAccesses s) : ∃ a, acc = readAccess s a := by
  obtain h | h | h := fetchAccesses_mem s h
  · exact ⟨_, h⟩
  · exact ⟨_, h⟩
  · exact ⟨_, h⟩

theorem fetchAccesses_we (h : acc ∈ fetchAccesses s) : acc.we = false := by
  obtain ⟨a, rfl⟩ := exists_read_of_mem_fetchAccesses h
  rfl

theorem dataAccesses_st (ha : regIndex? a = some ra) (hb : regIndex? b = some rb) :
    dataAccesses (.st a b) s = [.write (s.getReg ra) (s.getReg rb)] := by
  simp [dataAccesses, ha, hb]

theorem dataAccesses_push (ha : regIndex? a = some ra) :
    dataAccesses (.push a) s = [.write s.decSp.sp (s.decSp.getReg ra)] := by
  simp [dataAccesses, ha]

theorem dataAccesses_pop (ha : regIndex? a = some ra) : dataAccesses (.pop a) s = [readAccess s s.sp] := by
  simp [dataAccesses, ha]

theorem dataAccesses_call (ha : regIndex? a = some ra) :
    dataAccesses (.call a) s = [.write s.decSp.sp (nextAddress .call s.pc)] := by
  simp [dataAccesses, ha]

/-- An instruction with a register operand of 8..255 makes no data access (40_dispatch.md R92; log 27). -/
theorem dataAccesses_of_not_wf (h : i.wf = false) : dataAccesses i s = [] := by
  rw [Instr.wf_eq_false] at h
  cases i with
  | st a b =>
    obtain ha | hb : 8 ≤ a.toNat ∨ 8 ≤ b.toNat := by simpa [Instr.regOperands] using h
    · simp [dataAccesses, regIndex?_eq_none.mpr ha]
    · simp [dataAccesses, regIndex?_eq_none.mpr hb]
  | push a | pop a | call a =>
    have ha : 8 ≤ a.toNat := by simpa [Instr.regOperands] using h
    simp [dataAccesses, regIndex?_eq_none.mpr ha]
  | ret => simp [Instr.regOperands] at h
  | _ => rfl

/-- The instructions that write memory. -/
def storesByte (i : Instr) : Prop := i.op = .st ∨ i.op = .push ∨ i.op = .call

/-- The data accesses of an instruction: none, one write by ST, PUSH or CALL, or one read of memory's byte. -/
theorem Effect.dataAccesses_cases (h : Effect s i t) :
    dataAccesses i s = [] ∨ (storesByte i ∧ ∃ a v, dataAccesses i s = [.write a v]) ∨
      ∃ a, dataAccesses i s = [readAccess s a] := by
  cases h with
  | illegal hwf => exact .inl (dataAccesses_of_not_wf hwf)
  | st ha hb => exact .inr (.inl ⟨.inl rfl, _, _, dataAccesses_st ha hb⟩)
  | push ha => exact .inr (.inl ⟨.inr (.inl rfl), _, _, dataAccesses_push ha⟩)
  | call ha => exact .inr (.inl ⟨.inr (.inr rfl), _, _, dataAccesses_call ha⟩)
  | pop ha => exact .inr (.inr ⟨_, dataAccesses_pop ha⟩)
  | ret => exact .inr (.inr ⟨_, rfl⟩)
  | _ => exact .inl rfl

/-- The data accesses of an instruction account for what it does to memory. -/
theorem Effect.mem_eq (h : Effect s i t) : t.mem = applyAccesses (dataAccesses i s) s.mem := by
  cases h with
  | illegal hwf =>
    rw [dataAccesses_of_not_wf hwf]
    rfl
  | st ha hb =>
    rw [dataAccesses_st ha hb]
    rfl
  | push ha =>
    rw [dataAccesses_push ha]
    rfl
  | call ha =>
    rw [dataAccesses_call ha]
    rfl
  | pop ha =>
    rw [dataAccesses_pop ha]
    rfl
  | _ => rfl

/-- The instruction a running core executes next is what its fetched bytes decode to. -/
theorem nextInstr?_of_decode (hs : s.status = .running) (hd : decode (fetch s).ir (fetch s).a (fetch s).b = .ok i) :
    nextInstr? s = some i := by
  rw [nextInstr?, hs, hd]

theorem nextInstr?_of_decode_error {e : DecodeError} (hs : s.status = .running)
    (hd : decode (fetch s).ir (fetch s).a (fetch s).b = .error e) : nextInstr? s = none := by
  rw [nextInstr?, hs, hd]

/-- Every access of a step that executes an instruction: the fetch's, then the instruction's. -/
theorem busTrace_of_decode (hs : s.status = .running) (hd : decode (fetch s).ir (fetch s).a (fetch s).b = .ok i) :
    busTrace s = fetchAccesses s ++ dataAccesses i s := by
  rw [busTrace, hs, nextInstr?_of_decode hs hd]

/-- A step on a rejected byte makes the fetch's accesses alone. -/
theorem busTrace_of_decode_error {e : DecodeError} (hs : s.status = .running)
    (hd : decode (fetch s).ir (fetch s).a (fetch s).b = .error e) : busTrace s = fetchAccesses s := by
  rw [busTrace, hs, nextInstr?_of_decode_error hs hd, List.append_nil]

/-- Beyond the fetch a step makes no access, one write by ST, PUSH or CALL, or one read; its writes are what it does to
memory. -/
theorem step_dataAccesses (h : step s = .next t) :
    ∃ data, busTrace s = fetchAccesses s ++ data ∧ t.mem = applyAccesses data s.mem ∧
      (data = [] ∨ (∃ i, nextInstr? s = some i ∧ storesByte i ∧ ∃ a v, data = [.write a v]) ∨
        ∃ a, data = [readAccess s a]) := by
  have hs := step_next_running h
  obtain ⟨i, hd, heff⟩ | ⟨e, hd, rfl⟩ := step_effect h
  · refine ⟨_, busTrace_of_decode hs hd, heff.mem_eq, heff.dataAccesses_cases.imp_right (Or.imp_left ?_)⟩
    exact fun ⟨hst, hw⟩ => ⟨i, nextInstr?_of_decode hs hd, hst, hw⟩
  · exact ⟨[], by rw [busTrace_of_decode_error hs hd, List.append_nil], rfl, .inl rfl⟩

/-- What an instruction adds to the output is the print pulse (10_state.md R33). -/
theorem Effect.out_eq (h : Effect s i t) (hi : nextInstr? s = some i) : t.out = s.out ++ (outPulse s).toList := by
  by_cases hp : ∃ a r, i = .prn a ∧ regIndex? a = some r
  · obtain ⟨a, r, rfl, hr⟩ := hp
    rw [h.out_of_print hr, outPulse, hi]
    simp [hr]
  · have hnone : outPulse s = none := by
      unfold outPulse
      split
      next a ha =>
        have hia : i = .prn a := Option.some_inj.mp (hi.symm.trans ha)
        exact Option.map_eq_none_iff.mpr (Option.eq_none_iff_forall_ne_some.mpr fun r hr => hp ⟨a, r, hia, hr⟩)
      · rfl
    rw [h.out_of_not_print fun a r hia hr => hp ⟨a, r, hia, hr⟩, hnone, Option.toList_none, List.append_nil]

/-- A step appends its print pulse to the output. -/
theorem step_out (h : step s = .next t) : t.out = s.out ++ (outPulse s).toList := by
  have hs := step_next_running h
  obtain ⟨i, hd, heff⟩ | ⟨e, hd, rfl⟩ := step_effect h
  · exact heff.out_eq (nextInstr?_of_decode hs hd)
  · simp [outPulse, nextInstr?_of_decode_error hs hd]

/-- Settles O23: the fetch only reads, and the data access, if any, is read off `step_dataAccesses`. -/
theorem portsAccountForMemoryAndOutput : Obligations.PortsAccountForMemoryAndOutput := by
  intro s t h
  obtain ⟨data, hbus, hmem, hdata⟩ := step_dataAccesses h
  rw [hbus]
  refine ⟨?_, ?_, fun acc hacc hwe => ?_, fun acc hacc d hd => ?_, step_out h⟩
  · rw [hmem]
    exact ((applyAccesses_append _ _ _).trans (by rw [applyAccesses_of_reads fun _ => fetchAccesses_we])).symm
  · have hfetch : (fetchAccesses s).filter Access.we = [] :=
      List.filter_eq_nil_iff.mpr fun acc hacc => by simp [fetchAccesses_we hacc]
    rw [List.filter_append, hfetch, List.nil_append]
    refine (List.length_filter_le _ _).trans ?_
    obtain rfl | ⟨-, -, -, a, v, rfl⟩ | ⟨a, rfl⟩ := hdata <;> simp
  · obtain hacc | hacc := List.mem_append.mp hacc
    · cases (fetchAccesses_we hacc).symm.trans hwe
    · obtain rfl | ⟨i, hi, hst, -⟩ | ⟨a, rfl⟩ := hdata
      · cases hacc
      · exact ⟨i, hi, hst⟩
      · cases List.mem_singleton.mp hacc
        cases hwe
  · have hread : (∃ a, acc = readAccess s a) ∨ acc.rdata? = none := by
      obtain hacc | hacc := List.mem_append.mp hacc
      · exact .inl (exists_read_of_mem_fetchAccesses hacc)
      · obtain rfl | ⟨-, -, -, a, v, rfl⟩ | ⟨a, rfl⟩ := hdata
        · cases hacc
        · exact .inr (by rw [List.mem_singleton.mp hacc, Access.write_rdata?])
        · exact .inl ⟨a, List.mem_singleton.mp hacc⟩
    obtain ⟨a, rfl⟩ | hnone := hread
    · exact (Option.some_inj.mp hd).symm
    · cases hnone.symm.trans hd

/-- A memory that answers the reads of a list with the bytes they carry. -/
def Answers (m : Memory) (accs : List Access) : Prop :=
  ∀ acc ∈ accs, ∀ d, acc.rdata? = some d → Memory.read m acc.addr = d

theorem Answers.memRead (h : Answers m [readAccess s a]) : State.memRead { s with mem := m } a = s.memRead a :=
  h _ List.mem_cons_self _ rfl

theorem answers_append {accs accs' : List Access} : Answers m (accs ++ accs') ↔ Answers m accs ∧ Answers m accs' :=
  List.forall_mem_append

theorem answers_cons {accs : List Access} : Answers m (acc :: accs) ↔ Answers m [acc] ∧ Answers m accs :=
  answers_append (accs := [acc])

theorem Answers.readAccess (h : Answers m [readAccess s a]) :
    Machine.readAccess { s with mem := m } a = Machine.readAccess s a := by
  rw [Machine.readAccess, h.memRead, Machine.readAccess]

theorem answers_ite {p : Prop} [Decidable p] {accs : List Access} :
    Answers m (if p then accs else []) ↔ (p → Answers m accs) := by
  split
  next hp => simp [hp]
  next hp => simp [hp, Answers]

/-- The reads of a fetch one by one: the opcode byte, and the operand bytes it counts. -/
theorem answers_fetchAccesses : Answers m (fetchAccesses s) ↔ Answers m [readAccess s s.pc] ∧
    (1 ≤ operandCount (s.memRead s.pc) → Answers m [readAccess s (s.pc + 1)]) ∧
    (2 ≤ operandCount (s.memRead s.pc) → Answers m [readAccess s (s.pc + 2)]) := by
  rw [fetchAccesses, answers_cons, answers_append, answers_ite, answers_ite]

/-- A memory that answers the fetch gives the same latches. -/
theorem fetch_with_mem (h : Answers m (fetchAccesses s)) : fetch { s with mem := m } = fetch s := by
  obtain ⟨h0, h1, h2⟩ := answers_fetchAccesses.mp h
  rw [fetch, h0.memRead, fetch]
  congr 1
  · exact ite_congr rfl (fun hn => (h1 hn).memRead) fun _ => rfl
  · exact ite_congr rfl (fun hn => (h2 hn).memRead) fun _ => rfl

/-- A memory that answers the fetch is read by the same accesses. -/
theorem fetchAccesses_with_mem (h : Answers m (fetchAccesses s)) :
    fetchAccesses { s with mem := m } = fetchAccesses s := by
  obtain ⟨h0, h1, h2⟩ := answers_fetchAccesses.mp h
  rw [fetchAccesses, h0.memRead, fetchAccesses]
  refine congrArg₂ List.cons h0.readAccess (congrArg₂ List.append ?_ ?_)
  · exact ite_congr rfl (fun hn => congrArg (fun acc => [acc]) (h1 hn).readAccess) fun _ => rfl
  · exact ite_congr rfl (fun hn => congrArg (fun acc => [acc]) (h2 hn).readAccess) fun _ => rfl

/-- Over a memory that answers its reads an instruction has the same effect, its accesses applied to that memory. -/
theorem Effect.with_mem (h : Effect s i t) (hm : Answers m (dataAccesses i s)) :
    Effect { s with mem := m } i { t with mem := applyAccesses (dataAccesses i s) m } := by
  cases h with
  | illegal hwf =>
    rw [dataAccesses_of_not_wf hwf]
    exact .illegal hwf
  | st ha hb =>
    rw [dataAccesses_st ha hb]
    exact .st ha hb
  | push ha =>
    rw [dataAccesses_push ha]
    exact .push ha
  | call ha =>
    rw [dataAccesses_call ha]
    exact .call ha
  | pop ha =>
    rw [dataAccesses_pop ha] at hm ⊢
    have htop : State.topOfStack { s with mem := m } = s.topOfStack := hm.memRead
    rw [← htop]
    exact .pop ha
  | ret =>
    have htop : State.topOfStack { s with mem := m } = s.topOfStack := Answers.memRead hm
    rw [← htop]
    exact .ret
  | divZero ha hb hz => exact .divZero ha hb hz
  | hlt => exact .hlt
  | ldi ha => exact .ldi ha
  | prn ha => exact .prn ha
  | add ha hb => exact .add ha hb
  | sub ha hb => exact .sub ha hb
  | mul ha hb => exact .mul ha hb
  | div ha hb hz => exact .div ha hb hz
  | cmp ha hb => exact .cmp ha hb
  | jmp ha => exact .jmp ha
  | jeqTaken ha he => exact .jeqTaken ha he
  | jeqNot ha he => exact .jeqNot ha he
  | jneTaken ha he => exact .jneTaken ha he
  | jneNot ha he => exact .jneNot ha he

/-- Over a memory that answers its reads an instruction makes the same data accesses. -/
theorem dataAccesses_with_mem (hm : Answers m (dataAccesses i s)) :
    dataAccesses i { s with mem := m } = dataAccesses i s := by
  cases i with
  | pop a =>
    cases ha : regIndex? a with
    | none => simp only [dataAccesses, ha]
    | some ra =>
      rw [dataAccesses_pop ha] at hm
      rw [dataAccesses_pop ha, dataAccesses_pop ha]
      exact congrArg (fun acc => [acc]) hm.readAccess
  | ret => exact congrArg (fun acc => [acc]) (Answers.readAccess hm)
  | _ => rfl

/-- Settles O54: over the other memory the fetch gives the same latches, so the same instruction runs, and it reads the
same bytes. -/
theorem memoryIsSeenOnlyThroughReadData : Obligations.MemoryIsSeenOnlyThroughReadData := by
  intro s t m h hm
  have hs := step_next_running h
  have hs' : State.status { s with mem := m } = .running := hs
  have hfold : ∀ accs, accs.foldl Access.applyTo m = applyAccesses accs m := fun _ => rfl
  obtain ⟨i, hd, heff⟩ | ⟨e, hd, rfl⟩ := step_effect h
  · rw [busTrace_of_decode hs hd] at hm ⊢
    obtain ⟨hfetch, hdata⟩ := answers_append.mp hm
    rw [hfold, applyAccesses_append, applyAccesses_of_reads fun _ => fetchAccesses_we]
    rw [← fetch_with_mem hfetch] at hd
    constructor
    · rw [busTrace_of_decode hs' hd, fetchAccesses_with_mem hfetch, dataAccesses_with_mem hdata]
    · exact (step_of_decode hs' hd).trans (heff.with_mem hdata).exec_eq
  · rw [busTrace_of_decode_error hs hd] at hm ⊢
    rw [hfold, applyAccesses_of_reads fun _ => fetchAccesses_we, ← fetch_with_mem hm]
    rw [← fetch_with_mem hm] at hd
    constructor
    · rw [busTrace_of_decode_error hs' hd, fetchAccesses_with_mem hm]
    · exact step_of_decode_error hs' ((decode_fetch _).symm.trans hd)

end Sys2Proof.Machine
end

section
/-! SUPPORT. Runs: a stopped core's run, and the run to a halt, which every other run from its start is part of
(spec/40_dispatch.md section 3, spec/70_reset_and_hazards.md section 3). -/

namespace Sys2Proof.Machine

variable {s t u : State}

/-- One state steps to another. -/
def StepsTo (s t : State) : Prop := step s = .next t

/-- Reaching by steps is the reflexive and transitive closure of stepping. -/
theorem reaches_iff : Reaches s t ↔ Relation.ReflTransGen StepsTo s t := by
  constructor
  · intro h
    induction h with
    | refl => exact .refl
    | step _ hu ih => exact ih.tail hu
  · intro h
    induction h with
    | refl => exact .refl s
    | tail _ hu ih => exact ih.step hu

/-- A state has at most one next state. -/
theorem stepsTo_rightUnique : Relator.RightUnique StepsTo :=
  fun _ _ _ ht hu => Host.Outcome.next.inj (ht.symm.trans hu)

/-- Of two states reached from one, one is reached from the other. -/
theorem reaches_total (ht : Reaches s t) (hu : Reaches s u) : Reaches t u ∨ Reaches u t :=
  (Relation.ReflTransGen.total_of_right_unique stepsTo_rightUnique (reaches_iff.mp ht) (reaches_iff.mp hu)).imp
    reaches_iff.mpr reaches_iff.mpr

/-- Settles O28, by induction on the run: the core that would take its next step is the stopped one. -/
theorem stoppedCoreKeepsItsState : Obligations.StoppedCoreKeepsItsState := by
  intro s t hs h
  induction h with
  | refl => rfl
  | step _ hu ih =>
    subst ih
    exact absurd (step_next_running hu) hs

/-- Every state of a run that halts is on the way to its halted end. -/
theorem reaches_end_of_haltsIn (h : HaltsIn s t) (hu : Reaches s u) : Reaches u t := by
  obtain ⟨hst, ht⟩ := h
  obtain htu | hut := reaches_total hst hu
  · have heq : u = t := stoppedCoreKeepsItsState t u (by simp [ht]) htu
    exact heq ▸ .refl u
  · exact hut

/-- The output only grows along a run (10_state.md R33). -/
theorem out_prefix_of_reaches (h : Reaches s t) : s.out <+: t.out := by
  induction h with
  | refl => exact List.prefix_rfl
  | step _ hu ih =>
    rw [step_out hu]
    exact ih.trans (List.prefix_append _ _)

/-- Settles O29: every state reached lies before the halted end, and a stopped one is the end itself. -/
theorem haltedRunIsSafeAndUnique : Obligations.HaltedRunIsSafeAndUnique := by
  intro s t h
  have hend : ∀ u, Reaches s u → u.status ≠ .running → u = t := fun u hu hstop =>
    (stoppedCoreKeepsItsState u t hstop (reaches_end_of_haltsIn h hu)).symm
  refine ⟨fun u hu hf => ?_, fun u hu => hend u hu.1 (by simp [hu.2]), fun u hu => ?_⟩
  · have hut := hend u hu (by simp [hf])
    have hhalt : u.status = .halted := hut ▸ h.2
    cases hf.symm.trans hhalt
  · obtain ⟨vs, hvs⟩ := out_prefix_of_reaches (reaches_end_of_haltsIn h hu)
    exact ⟨vs, hvs.symm⟩

end Sys2Proof.Machine
end

section
/-! SUPPORT. Reset, load and the printed text (spec/10_state.md section 7, spec/70_reset_and_hazards.md section 1,
spec/60_exceptions.md section 3). -/

namespace Sys2Proof.Machine

/-- Settles O33: the fields of the reset state, which is running and so has a step. -/
theorem resetLeavesStatedValues : Obligations.ResetLeavesStatedValues := by
  have hregs : ∀ r, r ≠ 7 → State.reset.getReg r = 0 := by decide
  exact fun s => ⟨reset_memRead, hregs, rfl, rfl, rfl, rfl, rfl, rfl, step_total rfl⟩

/-- Settles O35: an accepted image is stored from address 0, and storing touches memory alone. -/
theorem loadTouchesMemoryAlone : Obligations.LoadTouchesMemoryAlone := by
  intro img s
  constructor
  · intro hlen
    have hload : hostLoad img s = some (s.storeBytes 0 img) := hostLoad_eq_some.mpr ⟨hlen, rfl⟩
    exact ⟨_, hload, State.storeBytes_eq s 0 img, hostLoad_memRead hload⟩
  · intro hlen
    exact if_neg (Nat.not_le_of_lt hlen)

/-- A decimal numeral that begins with the digit 0 is that of 0. -/
theorem eq_zero_of_head_toDigits (n : Nat) (h : (Nat.toDigits 10 n).head? = some '0') : n = 0 := by
  induction n using Nat.strongRecOn with
  | ind n ih =>
    rw [Nat.toDigits_eq_if (by decide)] at h
    split at h
    next hlt => simpa using h
    next hge =>
      have hpos : 0 < n / 10 := Nat.div_pos (Nat.le_of_not_lt hge) (by decide)
      rw [List.head?_append_of_ne_nil _ (List.ne_nil_of_length_pos Nat.length_toDigits_pos)] at h
      have hzero := ih (n / 10) (Nat.div_lt_self (by omega) (by decide)) h
      omega

/-- Settles O37: the digits are the library's decimal numeral, which reads back as the number. -/
theorem outputLineIsDecimalNumeral : Obligations.OutputLineIsDecimalNumeral := by
  refine ⟨fun v => ⟨Nat.toDigits 10 v.toNat, rfl, ?_, fun c hc => ?_, fun h => ?_, ?_⟩, rfl, fun vs v => ?_⟩
  · exact List.ne_nil_of_length_pos Nat.length_toDigits_pos
  · have hdigit := Nat.isDigit_of_mem_toDigits (by decide) (by decide) hc
    simpa [Char.isDigit, UInt32.le_iff_toNat_le] using hdigit
  · have hzero := eq_zero_of_head_toDigits _ h
    rw [hzero]
    exact ⟨BitVec.eq_of_toNat_eq hzero, rfl⟩
  · exact Nat.ofDigitChars_toDigits (by decide) (by decide)
  · simp [renderOutput]

end Sys2Proof.Machine
end

section
/-! SUPPORT. The frame of an instruction, update by update: what it may change is a list of registers, a list of
addresses and `pc`. -/

namespace Sys2Proof.Machine

open Sys2Proof.Claims

variable {rs : List Reg} {addrs : List Byte} {r : Reg} {a v : Byte} {op : Opcode} {s t : State}

/-- Only registers of the first list, bytes of memory at addresses of the second, and `pc` may differ. -/
structure Frame (rs : List Reg) (addrs : List Byte) (s t : State) : Prop where
  regs : RegsKeptExcept rs s t
  fl : t.fl = s.fl
  mem : MemKeptExcept addrs s t
  out : t.out = s.out
  run : RunKept s t

namespace Frame

/-- The frame as the per-instruction statements write it. -/
theorem spread (h : Frame rs addrs s t) :
    RegsKeptExcept rs s t ∧ t.fl = s.fl ∧ MemKeptExcept addrs s t ∧ t.out = s.out ∧ RunKept s t :=
  ⟨h.regs, h.fl, h.mem, h.out, h.run⟩

theorem refl (s : State) : Frame rs addrs s s := ⟨fun _ _ => rfl, rfl, fun _ _ => rfl, rfl, rfl, rfl⟩

theorem setPc (h : Frame rs addrs s t) : Frame rs addrs s (t.setPc v) := ⟨h.regs, h.fl, h.mem, h.out, h.run⟩

theorem advance (h : Frame rs addrs s t) : Frame rs addrs s (t.advance op) := h.setPc

theorem setReg (h : Frame rs addrs s t) (hr : r ∈ rs) : Frame rs addrs s (t.setReg r v) where
  regs q hq := by
    have hqr : q ≠ r := fun e => hq (e ▸ hr)
    rw [State.setReg_getReg, if_neg hqr, h.regs q hq]
  fl := h.fl
  mem := h.mem
  out := h.out
  run := h.run

theorem incSp (h : Frame rs addrs s t) (hsp : Config.spReg ∈ rs) : Frame rs addrs s t.incSp := h.setReg hsp

theorem memWrite (h : Frame rs addrs s t) (ha : a ∈ addrs) : Frame rs addrs s (t.memWrite a v) where
  regs := h.regs
  fl := h.fl
  mem b hb := by
    have hba : b ≠ a := fun e => hb (e ▸ ha)
    rw [State.memWrite_memRead, if_neg hba, h.mem b hb]
  out := h.out
  run := h.run

theorem pushByte (h : Frame rs addrs s t) (hsp : Config.spReg ∈ rs) (ha : t.decSp.sp ∈ addrs) :
    Frame rs addrs s (t.pushByte v) :=
  (h.setReg hsp).memWrite ha

/-- The frame of LDI and of the arithmetic instructions. -/
theorem setReg_advance (s : State) (r : Reg) (v : Byte) (op : Opcode) : Frame [r] [] s ((s.setReg r v).advance op) :=
  ((refl s).setReg List.mem_cons_self).advance

end Frame
end Sys2Proof.Machine
end

section
/-! SUPPORT. The generic instructions (spec/41_generic.md). -/

namespace Sys2Proof.Machine

open Sys2Proof.Claims

/-- Settles O38: a halt writes the status alone. -/
theorem haltStopsInPlace : Obligations.HaltStopsInPlace :=
  fun _ => ⟨_, exec_hlt, rfl, rfl, rfl, fun _ _ => rfl, rfl, fun _ _ => rfl, rfl⟩

/-- Settles O39: one register written and `pc` advanced, R7 like any other. -/
theorem loadImmediateSetsRegister : Obligations.LoadImmediateSetsRegister :=
  fun s a imm ha => ⟨_, exec_ldi imm ha, by simp [reg], by simp, (Frame.setReg_advance s _ _ _).spread⟩

/-- Settles O40: one byte written and `pc` advanced, whether or not the operands are equal. -/
theorem storeWritesAddressedByte : Obligations.StoreWritesAddressedByte :=
  fun s _ _ ha hb =>
    ⟨_, exec_st ha hb, by simp [reg], by simp, ((Frame.refl s).memWrite (by simp [reg])).advance.spread⟩

/-- Settles O26: the fetched opcode byte is the byte stored. -/
theorem storeIsSeenByNextFetch : Obligations.StoreIsSeenByNextFetch := by
  intro s a b ha hb
  obtain ⟨t, ht, hmem, -⟩ := storeWritesAddressedByte s a b ha hb
  exact ⟨t, ht, hmem⟩

/-- A register as PUSH and CALL read it, after the decrement (decision D17). -/
theorem decSp_getReg_reg (s : State) {a : Byte} (ha : a.toNat < 8) :
    s.decSp.getReg ⟨a.toNat, ha⟩ = if reg a ha = 7 then s.sp - 1 else s.getReg (reg a ha) :=
  State.decSp_getReg s _

/-- Settles O41: the value pushed is the register after the decrement. -/
theorem pushStoresBelowStackPointer : Obligations.PushStoresBelowStackPointer := by
  intro s a ha
  refine ⟨_, exec_push ha, State.decSp_sp s, ?_, ?_, by simp,
    ((Frame.refl s).pushByte (by simp [Config.spReg]) (by simp)).advance.spread⟩
  · simp [Config.spReg]
  · rw [← decSp_getReg_reg]
    simp

/-- Settles O36: the push of O41 from the stack pointer 0xF4. -/
theorem firstPushWritesBelowResetStack : Obligations.FirstPushWritesBelowResetStack := by
  refine ⟨rfl, fun s a ha hsp => ?_⟩
  obtain ⟨t, ht, hdec, hsp', hmem, -, -, -, hkept, -⟩ := pushStoresBelowStackPointer s a ha
  have hlow : s.sp - 1 = 0xF3 := by rw [hsp]; rfl
  rw [hdec, hlow] at hsp' hmem hkept
  exact ⟨t, ht, hsp', hmem, hkept⟩

/-- Settles O42: R7 is incremented after the popped byte is in the register. -/
theorem popLoadsFromStackPointer : Obligations.PopLoadsFromStackPointer := by
  intro s a ha
  have hexec : exec (.pop a) s = .next ((s.setReg (reg a ha) s.topOfStack).incSp.advance .pop) := exec_pop ha
  refine ⟨_, hexec, fun hne => ?_, fun heq => ?_, by simp,
    (((Frame.refl s).setReg (by simp)).incSp (by simp [Config.spReg])).advance.spread⟩
  · simp [Config.spReg, hne, hne.symm, State.topOfStack]
  · simp [Config.spReg, heq, State.topOfStack]

/-- Settles O43: the output and `pc` are all that changes. -/
theorem printAppendsRegister : Obligations.PrintAppendsRegister :=
  fun _ _ ha => ⟨_, exec_prn ha, rfl, by simp, fun _ _ => rfl, rfl, fun _ _ => rfl, rfl, rfl⟩

/-- Settles O30: the pop of O42 after the push of O41. Popped into R7 itself, the pushed byte is one below the old stack
pointer, and the increment makes up for it. -/
theorem pushThenPopRestoresRegisters : Obligations.PushThenPopRestoresRegisters := by
  intro s a ha
  obtain ⟨t, ht, hdec, htsp, htop, htpc, htregs, -, htmem, -⟩ := pushStoresBelowStackPointer s a ha
  obtain ⟨u, hu, hother, hseven, hupc, huregs, -, humem, -⟩ := popLoadsFromStackPointer t a ha
  have hsp : t.sp = s.decSp.sp := htsp
  rw [hsp, htop, hdec, BitVec.sub_add_cancel] at hother
  rw [hsp, htop] at hseven
  refine ⟨t, u, ht, hu, fun r _ => ?_, ?_, fun b hb => (humem b (by simp)).trans (htmem b hb)⟩
  · by_cases hra : r = reg a ha
    · subst hra
      by_cases h7 : reg a ha = 7
      · rw [h7, hseven h7, if_pos h7, BitVec.sub_add_cancel]
        rfl
      · rw [(hother h7).1, if_neg h7]
    · by_cases hr7 : r = 7
      · subst hr7
        exact (hother (Ne.symm hra)).2
      · rw [huregs r (by simp [hra, hr7]), htregs r (by simp [hr7])]
  · rw [hupc, htpc, BitVec.add_assoc]
    rfl

end Sys2Proof.Machine
end

section
/-! SUPPORT. The ALU instructions (spec/42_alu.md). -/

namespace Sys2Proof.Machine

open Sys2Proof.Claims

@[simp] theorem aluAdd_toNat (u v : Byte) : (aluAdd u v).toNat = (u.toNat + v.toNat) % 256 := rfl

@[simp] theorem aluMul_toNat (u v : Byte) : (aluMul u v).toNat = (u.toNat * v.toNat) % 256 := rfl

@[simp] theorem aluSub_toNat (u v : Byte) : ((aluSub u v).toNat : Int) = ((u.toNat : Int) - (v.toNat : Int)) % 256 := by
  rw [aluSub, BitVec.toNat_ofInt]
  omega

/-- A quotient is at most its dividend, so it needs no reduction. -/
@[simp] theorem aluDiv_toNat (u v : Byte) : (aluDiv u v).toNat = u.toNat / v.toNat := by
  rw [aluDiv, BitVec.toNat_ofNat]
  exact Nat.mod_eq_of_lt ((Nat.div_le_self _ _).trans_lt u.isLt)

/-- Settles O44: both operands are read before the register is written, so they may be equal. -/
theorem addWrapsModulo256 : Obligations.AddWrapsModulo256 :=
  fun s _ _ ha hb => ⟨_, exec_add ha hb, by simp [reg], by simp, (Frame.setReg_advance s _ _ _).spread⟩

/-- Settles O45: as O44, with the integer difference of `aluSub`. -/
theorem subtractWrapsModulo256 : Obligations.SubtractWrapsModulo256 :=
  fun s _ _ ha hb => ⟨_, exec_sub ha hb, by simp [reg], by simp, (Frame.setReg_advance s _ _ _).spread⟩

/-- Settles O46: as O44, with the low byte of `aluMul`. -/
theorem multiplyKeepsLowByte : Obligations.MultiplyKeepsLowByte :=
  fun s _ _ ha hb => ⟨_, exec_mul ha hb, by simp [reg], by simp, (Frame.setReg_advance s _ _ _).spread⟩

/-- Settles O47: the two bounds of the natural quotient. -/
theorem divideTruncates : Obligations.DivideTruncates := by
  intro s a b ha hb hz
  have hpos : 0 < (s.getReg (reg b hb)).toNat := Nat.pos_of_ne_zero fun h => hz (BitVec.eq_of_toNat_eq h)
  refine ⟨_, exec_div ha hb hz, ?_, ?_, by simp, (Frame.setReg_advance s _ _ _).spread⟩
  · simpa [reg] using Nat.div_mul_le_self _ _
  · simpa [reg, Nat.mul_comm] using Nat.lt_mul_div_succ _ hpos

/-- Settles O48: the three cases of `compareFlags`. -/
theorem compareSetsExactlyOneFlag : Obligations.CompareSetsExactlyOneFlag := by
  intro s a b ha hb
  refine ⟨_, exec_cmp ha hb, fun h => ?_, fun h => ?_, fun h => ?_, by simp, fun _ _ => rfl, fun _ _ => rfl, rfl, rfl,
    rfl⟩
  · exact if_pos h
  · exact (if_neg (Nat.lt_asymm h)).trans (if_pos h)
  · exact (if_neg h.not_lt).trans (if_neg h.not_gt)

end Sys2Proof.Machine
end

section
/-! SUPPORT. The control-flow instructions (spec/43_control_flow.md). -/

namespace Sys2Proof.Machine

open Sys2Proof.Claims

/-- Settles O49: the target is the register after the push. -/
theorem callPushesReturnAddress : Obligations.CallPushesReturnAddress := by
  intro s a ha
  refine ⟨_, exec_call ha, State.decSp_sp s, ?_, by simp, State.pushByte_getReg s _ _,
    ((Frame.refl s).pushByte (by simp [Config.spReg]) (by simp)).setPc.spread⟩
  simp [Config.spReg]

/-- Settles O50: `pc` takes the top of the stack before R7 goes up. -/
theorem returnPopsProgramCounter : Obligations.ReturnPopsProgramCounter :=
  fun s => ⟨_, exec_ret, rfl, by simp [Config.spReg], ((Frame.refl s).setPc.incSp (by simp [Config.spReg])).spread⟩

/-- Settles O51: `pc` is all that changes. -/
theorem jumpSetsProgramCounter : Obligations.JumpSetsProgramCounter :=
  fun s _ ha => ⟨_, exec_jmp ha, rfl, (Frame.refl s).setPc.spread⟩

/-- A conditional jump ends at its target or at the next instruction, with all else as it was. -/
theorem exec_jeq_pc (s : State) {a : Byte} (ha : a.toNat < 8) : ∃ t, exec (.jeq a) s = .next t ∧
    t.pc = (if equalSet s.fl then s.getReg (reg a ha) else s.pc + 2) ∧ Frame [] [] s t := by
  refine ⟨_, exec_jeq ha, ?_⟩
  split
  · exact ⟨rfl, (Frame.refl s).setPc⟩
  · exact ⟨nextAddress_jeq s.pc, (Frame.refl s).advance⟩

theorem exec_jne_pc (s : State) {a : Byte} (ha : a.toNat < 8) : ∃ t, exec (.jne a) s = .next t ∧
    t.pc = (if equalSet s.fl then s.pc + 2 else s.getReg (reg a ha)) ∧ Frame [] [] s t := by
  refine ⟨_, exec_jne ha, ?_⟩
  split
  · exact ⟨nextAddress_jne s.pc, (Frame.refl s).advance⟩
  · exact ⟨rfl, (Frame.refl s).setPc⟩

/-- Settles O52: `equalSet` is bit 0 of the flag byte. -/
theorem jumpIfEqualTestsEqualBit : Obligations.JumpIfEqualTestsEqualBit := by
  intro s a ha
  obtain ⟨t, ht, hpc, hframe⟩ := exec_jeq_pc s ha
  exact ⟨t, ht, hpc, hframe.spread⟩

/-- Settles O53: as O52, with the branches the other way round. -/
theorem jumpIfNotEqualTestsEqualBit : Obligations.JumpIfNotEqualTestsEqualBit := by
  intro s a ha
  obtain ⟨t, ht, hpc, hframe⟩ := exec_jne_pc s ha
  exact ⟨t, ht, hpc, hframe.spread⟩

/-- A compare sets bit E exactly on equal values. -/
theorem equalSet_compareFlags (u v : Byte) : equalSet (compareFlags u v) = true ↔ u = v := by
  obtain ⟨hlt, h⟩ | ⟨hgt, h⟩ | ⟨heq, h⟩ := compareFlags_cases u v
  · have hne : u ≠ v := fun e => hlt.ne (congrArg _ e)
    simp [h, hne]
  · have hne : u ≠ v := fun e => hgt.ne' (congrArg _ e)
    simp [h, hne]
  · subst heq
    simp [h]

/-- Settles O32: the jumps read bit E of what the compare left. -/
theorem compareThenJumpBranchesOnEquality : Obligations.CompareThenJumpBranchesOnEquality := by
  intro s a b ha hb
  refine ⟨_, exec_cmp ha hb, fun u c hc hfl => ?_⟩
  have hbit : equalSet u.fl = true ↔ s.getReg (reg a ha) = s.getReg (reg b hb) := by
    rw [hfl]
    exact equalSet_compareFlags _ _
  obtain ⟨v, hv, hvpc, -⟩ := exec_jeq_pc u hc
  obtain ⟨w, hw, hwpc, -⟩ := exec_jne_pc u hc
  simp only [hbit] at hvpc hwpc
  exact ⟨⟨v, hv, hvpc⟩, ⟨w, hw, hwpc⟩⟩

end Sys2Proof.Machine
end
